-- ==== Sys2Proof/Word.lean ====
section
/-! DEFINITION. The bit vectors of the frame engine: bytes, 16-bit fields and 32-bit words.
All values are unsigned and bit 0 is the least significant (00_scope.md R9). -/

namespace Sys2Proof

/-- A byte of BUF, of a payload or of a response (20_memory.md R50). -/
abbrev Byte := BitVec 8

/-- A 16-bit field: a type field, a TCI, an immediate. -/
abbrev Half := BitVec 16

/-- A 32-bit word: the command word, the result, the accumulator (30_encoding.md R80, 10_state.md R27). -/
abbrev Word := BitVec 32

/-- The selector field of a command word (30_encoding.md R81). -/
abbrev Sel := BitVec 10

end Sys2Proof
end

