-- ==== Sys2Proof/Config.lean ====
section
/-! DEFINITION. The implementation parameters of the block, each with the value 00_scope.md R5 gives it.
The spec leaves no value open but PORT_BINDING, on which no rule depends, so no constant here is opaque. -/

namespace Sys2Proof

/-- The two values the parameter WIRE_ORDER can take (20_memory.md R52). -/
inductive WireOrder where
  | big
  | little
deriving DecidableEq, Repr

namespace Config

/-- BUFCAP: the capacity of BUF in bytes and the largest LOAD accepted. -/
abbrev bufCap : Nat := 1518

/-- HDRLEN: the header bytes, offsets 0 to 11. -/
abbrev hdrLen : Nat := 12

/-- MACLEN: the bytes of a MAC address. -/
abbrev macLen : Nat := 6

/-- FCSLEN: the bytes of the trailing checksum field. -/
abbrev fcsLen : Nat := 4

/-- MINFCS: the smallest LEN at which FCS and VALIDATE answer. -/
abbrev minFcs : Nat := 16

/-- TYPELEN: the bytes of a type field. -/
abbrev typeLen : Nat := 2

/-- TAGLEN: the bytes a VLAN tag occupies in BUF, type field included (90_conflicts.md C1). -/
abbrev tagLen : Nat := 4

/-- TPID_VLAN: the one type value dispatched to VLAN handling. -/
abbrev tpidVlan : Half := 0x8100#16

/-- CRC_INIT: the start value of the accumulator. -/
abbrev crcInit : Word := 0xFFFFFFFF#32

/-- CRC_POLY: the constant XORed in when the low bit is set. -/
abbrev crcPoly : Word := 0xEDB88320#32

/-- CRC_XOROUT: the final complement as an XOR mask. -/
abbrev crcXorOut : Word := 0xFFFFFFFF#32

/-- PCP_MAX: the largest value SETPCP accepts. -/
abbrev pcpMax : Nat := 7

/-- The largest value SETDEI accepts (43_vlan.md R178, 92_eei_decisions.md D10). -/
abbrev deiMax : Nat := 1

/-- VID_MAX: the largest value SETVID accepts. -/
abbrev vidMax : Nat := 4095

/-- NSEGMAX: the largest segment count (10_state.md R25). -/
abbrev nsegMax : Nat := 376

/-- The longest payload a command word can announce, 16 bits of `imm` (92_eei_decisions.md D27). -/
abbrev payloadMax : Nat := 65535

/-- WIRE_ORDER: the byte order of the type field, the TCI and the checksum field in BUF.
The spec decides big-endian (92_eei_decisions.md D1). -/
abbrev wireOrder : WireOrder := .big

end Config

end Sys2Proof
end

