-- ==== Sys2Proof/Syntax.lean ====
section
/-! DEFINITION. The commands, one constructor per row of spec/opcode_table.json (30_encoding.md R86).
A format P command carries its payload; the length field `imm` of its word is the payload's length (R82). -/

namespace Sys2Proof

/-- The 22 commands of the block. -/
inductive Instr where
  /-- CRC32, 40_crc.md R112. -/
  | crc32 (data : List Byte)
  /-- CRCINIT, 40_crc.md R113. -/
  | crcinit
  /-- CRCUPD, 40_crc.md R114. -/
  | crcupd (data : List Byte)
  /-- CRCFIN, 40_crc.md R115. -/
  | crcfin
  /-- LOAD, 41_frame.md R130. -/
  | load (data : List Byte)
  /-- VALIDATE, 41_frame.md R137. -/
  | validate
  /-- FCS, 41_frame.md R138. -/
  | fcs
  /-- FSTAT, 41_frame.md R139. -/
  | fstat
  /-- GETDST, 41_frame.md R140. -/
  | getdst
  /-- GETSRC, 41_frame.md R141. -/
  | getsrc
  /-- GETBUF, 41_frame.md R142. -/
  | getbuf
  /-- SEGKIND, 42_segment.md R161. -/
  | segkind (sel : Sel)
  /-- GETYPE, 42_segment.md R162. -/
  | getype (sel : Sel)
  /-- GDATA, 42_segment.md R163. -/
  | gdata (sel : Sel)
  /-- TPID, 43_vlan.md R172. -/
  | tpid (sel : Sel)
  /-- TCI, 43_vlan.md R173. -/
  | tci (sel : Sel)
  /-- PCP, 43_vlan.md R174. -/
  | pcp (sel : Sel)
  /-- DEI, 43_vlan.md R175. -/
  | dei (sel : Sel)
  /-- VID, 43_vlan.md R176. -/
  | vid (sel : Sel)
  /-- SETPCP, 43_vlan.md R177. -/
  | setpcp (sel : Sel) (value : Half)
  /-- SETDEI, 43_vlan.md R178. -/
  | setdei (sel : Sel) (value : Half)
  /-- SETVID, 43_vlan.md R179. -/
  | setvid (sel : Sel) (value : Half)
deriving DecidableEq, Repr

/-- The four formats of 30_encoding.md R82. -/
inductive Format where
  /-- No operand: `sel` and `imm` zero, no payload. -/
  | n
  /-- Payload: `sel` zero, `imm` the payload length. -/
  | p
  /-- Selector: `imm` zero, no payload. -/
  | s
  /-- Selector and value, no payload. -/
  | v
deriving DecidableEq, Repr

/-- The payload bytes that follow a command's word (30_encoding.md R82). -/
def Instr.payload : Instr → List Byte
  | .crc32 data => data
  | .crcupd data => data
  | .load data => data
  | .crcinit => []
  | .crcfin => []
  | .validate => []
  | .fcs => []
  | .fstat => []
  | .getdst => []
  | .getsrc => []
  | .getbuf => []
  | .segkind _ => []
  | .getype _ => []
  | .gdata _ => []
  | .tpid _ => []
  | .tci _ => []
  | .pcp _ => []
  | .dei _ => []
  | .vid _ => []
  | .setpcp _ _ => []
  | .setdei _ _ => []
  | .setvid _ _ => []

/-- The selector of a format S or V command; the other formats have none (30_encoding.md R82). -/
def Instr.selector : Instr → Option Sel
  | .crc32 _ => none
  | .crcupd _ => none
  | .load _ => none
  | .crcinit => none
  | .crcfin => none
  | .validate => none
  | .fcs => none
  | .fstat => none
  | .getdst => none
  | .getsrc => none
  | .getbuf => none
  | .segkind sel => some sel
  | .getype sel => some sel
  | .gdata sel => some sel
  | .tpid sel => some sel
  | .tci sel => some sel
  | .pcp sel => some sel
  | .dei sel => some sel
  | .vid sel => some sel
  | .setpcp sel _ => some sel
  | .setdei sel _ => some sel
  | .setvid sel _ => some sel

end Sys2Proof
end

