-- ==== Sys2Proof/WellFormed.lean ====
section
/-! DEFINITION. Which command terms a command word can express.
The only bound that the operand types leave is the payload's length, 16 bits of `imm` (30_encoding.md R82, R83). -/

namespace Sys2Proof

/-- A command is well formed when its payload's length fits the field that announces it, so that the payload
is exactly as long as the word says (30_encoding.md R83). -/
def Instr.wf : Instr → Bool
  | .crc32 data => decide (data.length ≤ Config.payloadMax)
  | .crcupd data => decide (data.length ≤ Config.payloadMax)
  | .load data => decide (data.length ≤ Config.payloadMax)
  | .crcinit => true
  | .crcfin => true
  | .validate => true
  | .fcs => true
  | .fstat => true
  | .getdst => true
  | .getsrc => true
  | .getbuf => true
  | .segkind _ => true
  | .getype _ => true
  | .gdata _ => true
  | .tpid _ => true
  | .tci _ => true
  | .pcp _ => true
  | .dei _ => true
  | .vid _ => true
  | .setpcp _ _ => true
  | .setdei _ _ => true
  | .setvid _ _ => true

end Sys2Proof
end

