-- ==== Sys2Proof/Decode.lean ====
section
/-! DEFINITION. Command words and the serial form: the fields of a word (30_encoding.md R81), the opcode map and its
illegal words (R86, R87), the payload length (R83), the byte order of the transport (R85), and the encoder. -/

namespace Sys2Proof

/-! ### Words and fields -/

/-- The four bytes of a word, most significant first (30_encoding.md R85). -/
def wordBytes (w : Word) : List Byte :=
  [w.extractLsb' 24 8, w.extractLsb' 16 8, w.extractLsb' 8 8, w.extractLsb' 0 8]

/-- The word whose bytes, most significant first, are the four given. -/
def wordOfBytes (b3 b2 b1 b0 : Byte) : Word := b3 ++ b2 ++ b1 ++ b0

/-- `op`, bits 31:26 (30_encoding.md R81). -/
def opField (w : Word) : BitVec 6 := w.extractLsb' 26 6

/-- `sel`, bits 25:16 (30_encoding.md R81). -/
def selField (w : Word) : Sel := w.extractLsb' 16 10

/-- `imm`, bits 15:0 (30_encoding.md R81). -/
def immField (w : Word) : Half := w.extractLsb' 0 16

/-- The command word of three fields: `op·2^26 + sel·2^16 + imm` (30_encoding.md R81). -/
def mkWord (op : BitVec 6) (sel : Sel) (imm : Half) : Word := op ++ sel ++ imm

/-! ### The decoder -/

/-- Why a word is illegal (30_encoding.md R87). -/
inductive Reject where
  /-- R87 (a): the `op` is none of the 22 assigned values. -/
  | unassignedOp
  /-- R87 (b): a field that the format requires to be zero is not zero. -/
  | reservedNotZero
deriving DecidableEq, Repr

/-- What a command word with its payload selects. -/
inductive Decision where
  | command (i : Instr)
  | illegal (why : Reject)
deriving DecidableEq, Repr

/-- Format N: `sel` and `imm` must be 0 (30_encoding.md R82). -/
def formatN (w : Word) (i : Instr) : Decision :=
  if selField w = 0 ∧ immField w = 0 then .command i else .illegal .reservedNotZero

/-- Format P: `sel` must be 0 (30_encoding.md R82). -/
def formatP (w : Word) (i : Instr) : Decision :=
  if selField w = 0 then .command i else .illegal .reservedNotZero

/-- Format S: `imm` must be 0 (30_encoding.md R82). -/
def formatS (w : Word) (i : Instr) : Decision :=
  if immField w = 0 then .command i else .illegal .reservedNotZero

/-- Format V has no must-be-zero field (30_encoding.md R82). -/
def formatV (_ : Word) (i : Instr) : Decision := .command i

/-- The opcode map (30_encoding.md R86): the command a word selects, with the payload given, or why it is illegal. -/
def decodeCommand (w : Word) (payload : List Byte) : Decision :=
  match (opField w).toNat with
  | 0x01 => formatP w (.crc32 payload)
  | 0x02 => formatN w .crcinit
  | 0x03 => formatP w (.crcupd payload)
  | 0x04 => formatN w .crcfin
  | 0x08 => formatP w (.load payload)
  | 0x09 => formatN w .validate
  | 0x0A => formatN w .fcs
  | 0x0B => formatN w .fstat
  | 0x0C => formatN w .getdst
  | 0x0D => formatN w .getsrc
  | 0x0E => formatN w .getbuf
  | 0x10 => formatS w (.segkind (selField w))
  | 0x11 => formatS w (.getype (selField w))
  | 0x12 => formatS w (.gdata (selField w))
  | 0x18 => formatS w (.tpid (selField w))
  | 0x19 => formatS w (.tci (selField w))
  | 0x1A => formatS w (.pcp (selField w))
  | 0x1B => formatS w (.dei (selField w))
  | 0x1C => formatS w (.vid (selField w))
  | 0x1D => formatV w (.setpcp (selField w) (immField w))
  | 0x1E => formatV w (.setdei (selField w) (immField w))
  | 0x1F => formatV w (.setvid (selField w) (immField w))
  | _ => .illegal .unassignedOp

/-- The payload length a word announces: `imm` for a legal word of format P, 0 for every other word, illegal words
included (30_encoding.md R83). -/
def plen (w : Word) : Nat :=
  match (opField w).toNat with
  | 0x01 => if selField w = 0 then (immField w).toNat else 0
  | 0x03 => if selField w = 0 then (immField w).toNat else 0
  | 0x08 => if selField w = 0 then (immField w).toNat else 0
  | _ => 0

/-- What the engine finds at the front of the bytes the host has sent. -/
inductive Decoded where
  /-- A command, and the bytes after it. -/
  | command (i : Instr) (rest : List Byte)
  /-- An illegal word, and the bytes after its four (R87: no payload is taken). -/
  | illegal (why : Reject) (rest : List Byte)
  /-- Fewer bytes than the word, or than the word and its payload: the engine waits (70_reset_and_hazards.md R227). -/
  | incomplete
deriving DecidableEq, Repr

/-- Reading one command off the serial transport: four bytes of command word, most significant first, then exactly
`plen` payload bytes (30_encoding.md R83, R85). Total on any bytes. -/
def decode (bytes : List Byte) : Decoded :=
  match bytes with
  | b3 :: b2 :: b1 :: b0 :: rest =>
    let w := wordOfBytes b3 b2 b1 b0
    if rest.length < plen w then .incomplete
    else
      match decodeCommand w (rest.take (plen w)) with
      | .command i => .command i (rest.drop (plen w))
      | .illegal why => .illegal why rest
  | _ => .incomplete

/-! ### The encoder -/

/-- The command word of a command (30_encoding.md R81, R86). -/
def encodeWord : Instr → Word
  | .crc32 data => mkWord 0x01 0 (BitVec.ofNat 16 data.length)
  | .crcinit => mkWord 0x02 0 0
  | .crcupd data => mkWord 0x03 0 (BitVec.ofNat 16 data.length)
  | .crcfin => mkWord 0x04 0 0
  | .load data => mkWord 0x08 0 (BitVec.ofNat 16 data.length)
  | .validate => mkWord 0x09 0 0
  | .fcs => mkWord 0x0A 0 0
  | .fstat => mkWord 0x0B 0 0
  | .getdst => mkWord 0x0C 0 0
  | .getsrc => mkWord 0x0D 0 0
  | .getbuf => mkWord 0x0E 0 0
  | .segkind sel => mkWord 0x10 sel 0
  | .getype sel => mkWord 0x11 sel 0
  | .gdata sel => mkWord 0x12 sel 0
  | .tpid sel => mkWord 0x18 sel 0
  | .tci sel => mkWord 0x19 sel 0
  | .pcp sel => mkWord 0x1A sel 0
  | .dei sel => mkWord 0x1B sel 0
  | .vid sel => mkWord 0x1C sel 0
  | .setpcp sel value => mkWord 0x1D sel value
  | .setdei sel value => mkWord 0x1E sel value
  | .setvid sel value => mkWord 0x1F sel value

/-- The bytes of a command on the serial transport: the word, then the payload (30_encoding.md R85). -/
def encode (i : Instr) : List Byte := wordBytes (encodeWord i) ++ i.payload

/-! ### The opcode table -/

/-- One row of the opcode map as 30_encoding.md R86 prints it. -/
structure OpcodeRow where
  mnemonic : String
  format : Format
  pattern : Word
  mask : Word
deriving DecidableEq, Repr

/-- A word selects a row exactly when `w AND mask = match` (30_encoding.md R86). -/
def OpcodeRow.selects (r : OpcodeRow) (w : Word) : Bool := w &&& r.mask == r.pattern

/-- The table of 30_encoding.md R86, row by row, written down apart from the decoder so that the two can be held
against each other. -/
def opcodeTable : List OpcodeRow :=
  [⟨"CRC32", .p, 0x04000000, 0xFFFF0000⟩,
   ⟨"CRCINIT", .n, 0x08000000, 0xFFFFFFFF⟩,
   ⟨"CRCUPD", .p, 0x0C000000, 0xFFFF0000⟩,
   ⟨"CRCFIN", .n, 0x10000000, 0xFFFFFFFF⟩,
   ⟨"LOAD", .p, 0x20000000, 0xFFFF0000⟩,
   ⟨"VALIDATE", .n, 0x24000000, 0xFFFFFFFF⟩,
   ⟨"FCS", .n, 0x28000000, 0xFFFFFFFF⟩,
   ⟨"FSTAT", .n, 0x2C000000, 0xFFFFFFFF⟩,
   ⟨"GETDST", .n, 0x30000000, 0xFFFFFFFF⟩,
   ⟨"GETSRC", .n, 0x34000000, 0xFFFFFFFF⟩,
   ⟨"GETBUF", .n, 0x38000000, 0xFFFFFFFF⟩] ++
  [⟨"SEGKIND", .s, 0x40000000, 0xFC00FFFF⟩,
   ⟨"GETYPE", .s, 0x44000000, 0xFC00FFFF⟩,
   ⟨"GDATA", .s, 0x48000000, 0xFC00FFFF⟩,
   ⟨"TPID", .s, 0x60000000, 0xFC00FFFF⟩,
   ⟨"TCI", .s, 0x64000000, 0xFC00FFFF⟩,
   ⟨"PCP", .s, 0x68000000, 0xFC00FFFF⟩,
   ⟨"DEI", .s, 0x6C000000, 0xFC00FFFF⟩,
   ⟨"VID", .s, 0x70000000, 0xFC00FFFF⟩,
   ⟨"SETPCP", .v, 0x74000000, 0xFC000000⟩,
   ⟨"SETDEI", .v, 0x78000000, 0xFC000000⟩,
   ⟨"SETVID", .v, 0x7C000000, 0xFC000000⟩]

/-- The mnemonic of a command (30_encoding.md R86). -/
def Instr.mnemonic : Instr → String
  | .crc32 _ => "CRC32"
  | .crcinit => "CRCINIT"
  | .crcupd _ => "CRCUPD"
  | .crcfin => "CRCFIN"
  | .load _ => "LOAD"
  | .validate => "VALIDATE"
  | .fcs => "FCS"
  | .fstat => "FSTAT"
  | .getdst => "GETDST"
  | .getsrc => "GETSRC"
  | .getbuf => "GETBUF"
  | .segkind _ => "SEGKIND"
  | .getype _ => "GETYPE"
  | .gdata _ => "GDATA"
  | .tpid _ => "TPID"
  | .tci _ => "TCI"
  | .pcp _ => "PCP"
  | .dei _ => "DEI"
  | .vid _ => "VID"
  | .setpcp _ _ => "SETPCP"
  | .setdei _ _ => "SETDEI"
  | .setvid _ _ => "SETVID"

/-! ### The host's numbering of a table word -/

/-- The bytes, in transport order, of an instruction whose bits are `w` as spec/opcode_table.json numbers them: one
word of 32 bits, then the payload bytes the word announces, all zero. -/
def tableBytes (nbits w : Nat) : List Byte :=
  let cw : Word := BitVec.ofNat 32 (w % 2 ^ nbits)
  wordBytes cw ++ List.replicate (plen cw) 0

/-- The instruction this decoder reads from a table word, none where it is refused. -/
def decodeTableWord (nbits w : Nat) : Option Instr :=
  match decode (tableBytes nbits w) with
  | .command i _ => some i
  | .illegal _ _ => none
  | .incomplete => none

end Sys2Proof
end

