-- ==== Sys2Proof/Machine/State.lean ====
section
/-! DEFINITION. The state of the frame engine (10_state.md R20), the port through which the host's moves reach it and
its responses leave it (00_scope.md R7), the faults and refusals, and the state after reset (10_state.md R32). -/

namespace Sys2Proof.Machine

/-- BUF as (offset, byte) pairs in the canonical form of `Memory.wf`: offsets strictly rising and below 1518, no byte
listed that equals what an unlisted offset reads as (10_state.md R21; assumption log 5). -/
abbrev Memory := List Host.Cell

/-- A MAC address: six bytes in wire order, never read as an integer (10_state.md R23, 20_memory.md R54). -/
structure MacAddr where
  b0 : Byte
  b1 : Byte
  b2 : Byte
  b3 : Byte
  b4 : Byte
  b5 : Byte
deriving DecidableEq, Repr

/-- HDR, the parsed header (10_state.md R23). -/
structure Header where
  dst : MacAddr
  src : MacAddr
deriving DecidableEq, Repr

/-- One entry of SEG (10_state.md R24). The constructor is the entry's `kind`; the tpid of a tag is a constant and is
not stored (92_eei_decisions.md D28). -/
inductive Segment where
  /-- A Generic segment: its type field, and the offset in BUF and the number of its data bytes. -/
  | generic (etherType : Half) (doff dlen : BitVec 11)
  /-- A VLAN tag: a copy of its TCI. -/
  | vlanTag (tci : Half)
deriving DecidableEq, Repr

/-- The two values of an entry's `kind` (10_state.md R24). -/
inductive Kind where
  | generic
  | vlanTag
deriving DecidableEq, Repr

/-- The status codes of 60_exceptions.md R190. -/
inductive Status where
  | ok
  | frameTooLarge
  | frameTooShort
  | truncatedSegment
  | invalidFieldValue
  | badIndex
  | wrongKind
  | illegalCommand
deriving DecidableEq, Repr

/-- A response: status, 32-bit result, output bytes (30_encoding.md R80, R84). -/
structure Response where
  status : Status
  result : Word
  out : List Byte
deriving DecidableEq, Repr

/-- The host's moves as they arrive at the port: a byte of the serial form (30_encoding.md R85) or an assertion of
reset (70_reset_and_hazards.md R220). -/
inductive HostEvent where
  | byte (b : Byte)
  | reset
deriving DecidableEq, Repr

/-- The whole state. The first seven elements (HDR one record) are the spec's, 10_state.md R20; the last two are the
model's own port (assumption log 1 and 2). -/
structure State where
  /-- BUF, R21. -/
  buf : Memory
  /-- LEN, R22. -/
  len : BitVec 11
  /-- HDR, R23. -/
  hdr : Header
  /-- SEG, R24: the entries that have a value, first segment first (assumption log 6). -/
  seg : List Segment
  /-- NSEG, R25. -/
  nseg : BitVec 9
  /-- PARSED, R26. -/
  parsed : Bool
  /-- ACC, R27. -/
  acc : Word
  /-- The model's own: what the host has presented and the engine has not taken, oldest first. -/
  input : List HostEvent
  /-- The model's own: the response of the last transaction, as handed to the host. -/
  response : Option Response
deriving DecidableEq, Repr

/-- Why a step stops. No step stops in a state that meets the invariants of 10_state.md R31. -/
inductive Fault where
  /-- Raised by VALIDATE, FCS, GETBUF and GDATA when LEN, or an entry's `doff` and `dlen`, point past offset 1517,
  where no byte exists (20_memory.md R50). Safe: only states that break R31 raise it. -/
  | outsideBuffer
  /-- Raised by the commands with a selector when `sel` is below NSEG and the table has no entry there, a value the
  spec says does not exist (10_state.md R24). Safe: only states that break R31 raise it. -/
  | segmentAbsent
deriving DecidableEq, Repr

/-- Why an instruction has no meaning. -/
inductive Refusal where
  /-- An arm of `exec` whose instruction has no meaning yet. No arm of this model answers it. Safe. -/
  | notModelled (mnemonic : String)
deriving DecidableEq, Repr

/-- The zero address (10_state.md R32). -/
def MacAddr.zero : MacAddr := ⟨0, 0, 0, 0, 0, 0⟩

/-- The state after reset, every element at its value of 10_state.md R32; the port is empty. -/
def State.reset : State where
  buf := []
  len := 0
  hdr := ⟨MacAddr.zero, MacAddr.zero⟩
  seg := []
  nseg := 0
  parsed := false
  acc := Config.crcInit
  input := []
  response := none

end Sys2Proof.Machine
end

