-- ==== Sys2Proof/Machine/Flags.lean ====
section
/-! DEFINITION. The encodings of what a response carries. The block has no condition codes and no flags
(10_state.md R30); what other machines keep in flags it returns in `status` and `result` (30_encoding.md R84). -/

namespace Sys2Proof.Machine

/-- The number of a status (60_exceptions.md R190). -/
def Status.code : Status → BitVec 8
  | .ok => 0
  | .frameTooLarge => 1
  | .frameTooShort => 2
  | .truncatedSegment => 3
  | .invalidFieldValue => 4
  | .badIndex => 5
  | .wrongKind => 6
  | .illegalCommand => 7

/-- A truth value as a result: 1 true, 0 false (30_encoding.md R84). -/
def truthWord (b : Bool) : Word := if b then 1 else 0

/-- The kind of a segment table entry (10_state.md R24). -/
def Segment.kind : Segment → Kind
  | .generic _ _ _ => .generic
  | .vlanTag _ => .vlanTag

/-- A kind as a result: 0 Generic, 1 VlanTag (30_encoding.md R84). -/
def kindWord : Kind → Word
  | .generic => 0
  | .vlanTag => 1

/-- The packing of FSTAT's result: PARSED in bit 31, NSEG in 24:16, LEN in 10:0, the rest 0 (41_frame.md R139). -/
def statWord (parsed : Bool) (nseg : BitVec 9) (len : BitVec 11) : Word :=
  BitVec.ofBool parsed ++ 0#6 ++ nseg ++ 0#5 ++ len

end Sys2Proof.Machine
end

