-- ==== Sys2Proof/Machine/Ops.lean ====
section
/-! DEFINITION. The named operations: reading and filling BUF (20_memory.md), giving a response and raising an error
(60_exceptions.md R200), reset (70_reset_and_hazards.md R220), and taking the next host move off the port (30_encoding.md
R85). -/

namespace Sys2Proof.Machine

/-! ### BUF -/

/-- What an offset of BUF that is not listed reads as: the reset contents, and the zero fill of LOAD
(10_state.md R32 and R31 (ii), 92_eei_decisions.md D5, D18). -/
def Memory.unlisted : Byte := 0x00

/-- The byte at an offset (00_scope.md R10, `BUF[i]`). -/
def Memory.byteAt (m : Memory) (a : Nat) : Byte :=
  match m with
  | [] => Memory.unlisted
  | (k, b) :: rest => if k = a then b else Memory.byteAt rest a

/-- The `n` bytes from offset `a` up, in offset order (00_scope.md R9, `BUF[a..a+n)`). -/
def Memory.slice (m : Memory) (a n : Nat) : List Byte :=
  match n with
  | 0 => []
  | k + 1 => m.byteAt a :: Memory.slice m (a + 1) k

/-- Two bytes, lower offset first, as a 16-bit value under a wire order (20_memory.md R52). -/
def halfOfBytes (order : WireOrder) (lo hi : Byte) : Half :=
  match order with
  | .big => lo ++ hi
  | .little => hi ++ lo

/-- Four bytes, lowest offset first, as a 32-bit value under a wire order (20_memory.md R53). -/
def fieldOfBytes (order : WireOrder) (a b c d : Byte) : Word :=
  match order with
  | .big => a ++ b ++ c ++ d
  | .little => d ++ c ++ b ++ a

/-- `MemRead(a, 2)` (00_scope.md R10, 20_memory.md R52). -/
def Memory.read2 (m : Memory) (a : Nat) : Half :=
  halfOfBytes Config.wireOrder (m.byteAt a) (m.byteAt (a + 1))

/-- `MemRead(a, 4)` (00_scope.md R10, 20_memory.md R53). -/
def Memory.read4 (m : Memory) (a : Nat) : Word :=
  fieldOfBytes Config.wireOrder (m.byteAt a) (m.byteAt (a + 1)) (m.byteAt (a + 2)) (m.byteAt (a + 3))

/-- The cells of a byte sequence laid down from offset `a`, less the bytes an unlisted offset reads as anyway. -/
def Memory.place (a : Nat) (data : List Byte) : Memory :=
  match data with
  | [] => []
  | b :: rest => if b = Memory.unlisted then Memory.place (a + 1) rest else (a, b) :: Memory.place (a + 1) rest

/-- LOAD's write of BUF, the only write there is: payload byte `i` at offset `i` and `0x00` at every offset above
(41_frame.md R132, 20_memory.md R50). -/
def Memory.fill (data : List Byte) : Memory := Memory.place 0 data

/-- The canonical form from offset `lo` up. -/
def Memory.wfFrom (lo : Nat) (m : Memory) : Bool :=
  match m with
  | [] => true
  | (a, b) :: rest =>
    decide (lo ≤ a) && decide (a < Config.bufCap) && decide (b ≠ Memory.unlisted) && Memory.wfFrom (a + 1) rest

/-- The canonical form of BUF: offsets strictly rising and below 1518, no listed byte equal to an unlisted one. -/
def Memory.wf (m : Memory) : Bool := Memory.wfFrom 0 m

/-- The address at offsets `a` to `a+5`, taken verbatim (20_memory.md R54). -/
def MacAddr.ofBuf (m : Memory) (a : Nat) : MacAddr :=
  ⟨m.byteAt a, m.byteAt (a + 1), m.byteAt (a + 2), m.byteAt (a + 3), m.byteAt (a + 4), m.byteAt (a + 5)⟩

/-- The six bytes of an address, byte 0 first (41_frame.md R140). -/
def MacAddr.bytes (a : MacAddr) : List Byte := [a.b0, a.b1, a.b2, a.b3, a.b4, a.b5]

/-- The header a buffer begins with (41_frame.md R133). -/
def Header.ofBuf (m : Memory) : Header := ⟨MacAddr.ofBuf m 0, MacAddr.ofBuf m Config.macLen⟩

/-- Hand the `n` bytes of BUF from offset `off` to `k`; offsets past 1517 do not exist (20_memory.md R50). -/
def State.withBytes (s : State) (off n : Nat) (k : List Byte → Host.Outcome State Fault Refusal) :
    Host.Outcome State Fault Refusal :=
  if off + n ≤ Config.bufCap then k (s.buf.slice off n) else .fault .outsideBuffer

/-! ### Responses and errors -/

/-- `return (r, o)`: the command ends with status OK (00_scope.md R10, 30_encoding.md R84). -/
def State.answer (s : State) (result : Word) (out : List Byte) : State :=
  { s with response := some ⟨.ok, result, out⟩ }

/-- `raise E`, the block's way of taking an exception: the command ends with the error's status, result 0 and empty
output; nothing is saved, no mode changes, control goes nowhere (00_scope.md R10, 60_exceptions.md R200). There is no
return from an error: the next command simply runs on the state left here (R201). -/
def State.raise (s : State) (e : Status) : State :=
  { s with response := some ⟨e, 0, []⟩ }

/-- A response as the transport carries it: `RW0 = {status, 0x00, outlen}` and `RW1 = result`, each most significant
byte first, then the output bytes (30_encoding.md R85). -/
def Response.serial (r : Response) : List Byte :=
  wordBytes (r.status.code ++ 0#8 ++ BitVec.ofNat 16 r.out.length) ++ wordBytes r.result ++ r.out

/-! ### The port -/

/-- The state with the port holding `input`. -/
def State.withInput (s : State) (input : List HostEvent) : State := { s with input := input }

/-- The host asserts reset: every element at its reset value in one step, whatever was in progress abandoned without a
response (70_reset_and_hazards.md R220); `rest` is what the host does afterwards. -/
def State.assertReset (rest : List HostEvent) : State := State.reset.withInput rest

/-- The bytes at the front of the port, up to the first assertion of reset. -/
def leadingBytes : List HostEvent → List Byte
  | .byte b :: rest => b :: leadingBytes rest
  | .reset :: _ => []
  | [] => []

/-- What stands behind those bytes. -/
def afterBytes : List HostEvent → List HostEvent
  | .byte _ :: rest => afterBytes rest
  | .reset :: rest => .reset :: rest
  | [] => []

/-- The host's next move. -/
inductive Move where
  /-- A whole command, and what the port holds after it. -/
  | command (i : Instr) (rest : List HostEvent)
  /-- An illegal word (30_encoding.md R87), and what the port holds after it. -/
  | illegal (why : Reject) (rest : List HostEvent)
  /-- Reset, asserted before a whole command was there (70_reset_and_hazards.md R220), and what the port holds after. -/
  | reset (rest : List HostEvent)
  /-- Nothing whole is there: the engine waits (70_reset_and_hazards.md R227). -/
  | none
deriving DecidableEq, Repr

/-- Taking the next move off the port (30_encoding.md R83, R85; 70_reset_and_hazards.md R220, R227). -/
def fetch (input : List HostEvent) : Move :=
  match decode (leadingBytes input) with
  | .command i rest => .command i (rest.map .byte ++ afterBytes input)
  | .illegal why rest => .illegal why (rest.map .byte ++ afterBytes input)
  | .incomplete =>
    match afterBytes input with
    | .reset :: rest => .reset rest
    | .byte _ :: _ => .none
    | [] => .none

end Sys2Proof.Machine
end

