-- ==== Sys2Proof/Machine/Operands.lean ====
section
/-! DEFINITION. The operand forms: the selector check (42_segment.md R160, 43_vlan.md R171), the fields of a TCI
(43_vlan.md R170), and the range-checked write of one field (R177 to R179). -/

namespace Sys2Proof.Machine

/-! ### Selectors -/

/-- The selector check without a kind: `BadIndex` at NSEG and above (42_segment.md R160). -/
def State.withSegment (s : State) (sel : Sel) (k : Segment → Host.Outcome State Fault Refusal) :
    Host.Outcome State Fault Refusal :=
  if s.nseg.toNat ≤ sel.toNat then .next (s.raise .badIndex)
  else
    match s.seg[sel.toNat]? with
    | some e => k e
    | none => .fault .segmentAbsent

/-- The selector check for a Generic entry: `BadIndex`, then `WrongKind` (42_segment.md R160). -/
def State.withGeneric (s : State) (sel : Sel)
    (k : Half → BitVec 11 → BitVec 11 → Host.Outcome State Fault Refusal) : Host.Outcome State Fault Refusal :=
  s.withSegment sel fun e =>
    match e with
    | .generic etherType doff dlen => k etherType doff dlen
    | .vlanTag _ => .next (s.raise .wrongKind)

/-- The selector check for a VLAN tag: `BadIndex`, then `WrongKind` (43_vlan.md R171). -/
def State.withTag (s : State) (sel : Sel) (k : Half → Host.Outcome State Fault Refusal) :
    Host.Outcome State Fault Refusal :=
  s.withSegment sel fun e =>
    match e with
    | .generic _ _ _ => .next (s.raise .wrongKind)
    | .vlanTag tci => k tci

/-! ### The fields of a TCI (43_vlan.md R170) -/

/-- pcp, bits 15:13. -/
def tciPcp (t : Half) : BitVec 3 := t.extractLsb' 13 3

/-- dei, bit 12. -/
def tciDei (t : Half) : BitVec 1 := t.extractLsb' 12 1

/-- vid, bits 11:0. -/
def tciVid (t : Half) : BitVec 12 := t.extractLsb' 0 12

/-- `tci_pack(p, d, v) = p·8192 + d·4096 + v`. -/
def tciPack (p : BitVec 3) (d : BitVec 1) (v : BitVec 12) : Half := p ++ d ++ v

/-- SETPCP's read, clear 15:13, OR (43_vlan.md R177). -/
def tciSetPcp (t value : Half) : Half := (t &&& 0x1FFF#16) ||| (value * 8192#16)

/-- SETDEI's read, clear 12, OR (43_vlan.md R178). -/
def tciSetDei (t value : Half) : Half := (t &&& 0xEFFF#16) ||| (value * 4096#16)

/-- SETVID's read, clear 11:0, OR (43_vlan.md R179). -/
def tciSetVid (t value : Half) : Half := (t &&& 0xF000#16) ||| value

/-! ### Writing a field -/

/-- The write of one entry's TCI, the only write of SEG outside LOAD (43_vlan.md R180). -/
def State.setTci (s : State) (sel : Sel) (tci : Half) : State :=
  { s with seg := s.seg.set sel.toNat (.vlanTag tci) }

/-- A mutator: selector check, then the range check of the value, then the write; a refused value changes nothing
(43_vlan.md R177 to R179, 60_exceptions.md R199). -/
def State.mutateTag (s : State) (sel : Sel) (value : Half) (largest : Nat) (write : Half → Half → Half) :
    Host.Outcome State Fault Refusal :=
  s.withTag sel fun tci =>
    if largest < value.toNat then .next (s.raise .invalidFieldValue)
    else .next ((s.setTci sel (write tci value)).answer 0 [])

end Sys2Proof.Machine
end

