-- ==== Sys2Proof/Machine/Checksum.lean ====
section
/-! DEFINITION. The checksum engine: the CRC-32 function (40_crc.md R110, R111) and the commands CRC32, CRCINIT, CRCUPD
and CRCFIN (R112 to R115). -/

namespace Sys2Proof.Machine

/-- One round: test the low bit, shift right logically, XOR the polynomial in when the bit was set (40_crc.md R110). -/
def crcRound (a : Word) : Word :=
  if a.getLsbD 0 then (a >>> 1) ^^^ Config.crcPoly else a >>> 1

/-- `n` rounds. -/
def crcRounds (n : Nat) (a : Word) : Word :=
  match n with
  | 0 => a
  | k + 1 => crcRounds k (crcRound a)

/-- `crc_byte(acc, b)`: XOR into the low 8 bits, then 8 rounds (40_crc.md R110). -/
def crcByte (acc : Word) (b : Byte) : Word := crcRounds 8 (acc ^^^ b.setWidth 32)

/-- `crc_run(acc, data)`: the byte step folded over the bytes in index order (40_crc.md R111). -/
def crcRun (acc : Word) (data : List Byte) : Word :=
  match data with
  | [] => acc
  | b :: rest => crcRun (crcByte acc b) rest

/-- The final complement (40_crc.md R111, 00_scope.md R5 CRC_XOROUT). -/
def crcFinal (acc : Word) : Word := acc ^^^ Config.crcXorOut

/-- `crc32(data)` (40_crc.md R111). -/
def crc32 (data : List Byte) : Word := crcFinal (crcRun Config.crcInit data)

/-- The state with another accumulator. -/
def State.setAcc (s : State) (acc : Word) : State := { s with acc := acc }

/-- CRC32: the checksum of the payload; no state is read or written (40_crc.md R112). -/
def execCrc32 (data : List Byte) (s : State) : Host.Outcome State Fault Refusal :=
  .next (s.answer (crc32 data) [])

/-- CRCINIT: ACC to the start value (40_crc.md R113). -/
def execCrcinit (s : State) : Host.Outcome State Fault Refusal :=
  .next ((s.setAcc Config.crcInit).answer 0 [])

/-- CRCUPD: the payload fed to ACC (40_crc.md R114). -/
def execCrcupd (data : List Byte) (s : State) : Host.Outcome State Fault Refusal :=
  .next ((s.setAcc (crcRun s.acc data)).answer 0 [])

/-- CRCFIN: the complement of ACC, which keeps its value (40_crc.md R115). -/
def execCrcfin (s : State) : Host.Outcome State Fault Refusal :=
  .next (s.answer (crcFinal s.acc) [])

end Sys2Proof.Machine
end

