-- ==== Sys2Proof/Machine/Frame.lean ====
section
/-! DEFINITION. The frame commands: LOAD with its parse (41_frame.md R130 to R136), VALIDATE, FCS, FSTAT, GETDST, GETSRC
and GETBUF (R137 to R142). -/

namespace Sys2Proof.Machine

/-- Part 2 of LOAD: the frame replaces BUF and LEN, the table is emptied, PARSED cleared (41_frame.md R132). -/
def State.copyFrame (s : State) (data : List Byte) : State :=
  { s with
    buf := Memory.fill data
    len := BitVec.ofNat 11 data.length
    seg := []
    nseg := 0
    parsed := false }

/-- Part 3 of LOAD: the header, unconditionally (41_frame.md R133). -/
def State.extractHeader (s : State) : State := { s with hdr := Header.ofBuf s.buf }

/-- The end of a parse that came through: the table it built, its count, and PARSED (41_frame.md R134, R136). -/
def State.setSegments (s : State) (segs : List Segment) : State :=
  { s with seg := segs, nseg := BitVec.ofNat 9 segs.length, parsed := true }

/-- The segment loop (41_frame.md R134). `off` is the cursor and `rem = LEN − 4 − off` the bytes before the checksum
region; `rem` falls by 4 at each tag, which is the loop's own measure. The loop bound is tested first (90_conflicts.md
C3). `none` is the loop's `goto fail`. -/
def parseLoop (m : Memory) (rem off : Nat) (segs : List Segment) : Option (List Segment) :=
  match rem with
  | 0 => some segs
  | 1 => none
  | rest + 2 =>
    if m.read2 off = Config.tpidVlan then
      match rest with
      | 0 => none
      | 1 => none
      | rest' + 2 => parseLoop m rest' (off + 4) (segs ++ [.vlanTag (m.read2 (off + 2))])
    else some (segs ++ [.generic (m.read2 off) (BitVec.ofNat 11 (off + 2)) (BitVec.ofNat 11 rest)])

/-- The parse of a frame of `len` bytes: from offset 12, bounded by `len − 4`, no pass at all when `len ≤ 16`
(41_frame.md R134). -/
def parseFrame (m : Memory) (len : Nat) : Option (List Segment) :=
  parseLoop m (len - Config.fcsLen - Config.hdrLen) Config.hdrLen []

/-- Parts 4 and 5 of LOAD on a state whose frame and header are in place. A failed parse raises `TruncatedSegment` on
the state as it stands: new frame and header, no segments, PARSED 0 (41_frame.md R135). -/
def State.parseSegments (s : State) : State :=
  match parseFrame s.buf s.len.toNat with
  | some segs => (s.setSegments segs).answer 0 []
  | none => s.raise .truncatedSegment

/-- LOAD (41_frame.md R130): the size check before anything is written (R131), then copy, header, parse. -/
def execLoad (data : List Byte) (s : State) : Host.Outcome State Fault Refusal :=
  if Config.bufCap < data.length then .next (s.raise .frameTooLarge)
  else .next ((s.copyFrame data).extractHeader.parseSegments)

/-- The guard and the read that VALIDATE and FCS share: `FrameTooShort` below 16 bytes, else the checksum field, the
last four bytes of the frame (41_frame.md R137, R138; 20_memory.md R53). A LEN above 1518 names bytes BUF does not have. -/
def State.withChecksumField (s : State) (k : Word → Host.Outcome State Fault Refusal) :
    Host.Outcome State Fault Refusal :=
  if s.len.toNat < Config.minFcs then .next (s.raise .frameTooShort)
  else s.withBytes (s.len.toNat - Config.fcsLen) Config.fcsLen fun _ => k (s.buf.read4 (s.len.toNat - Config.fcsLen))

/-- VALIDATE: the checksum field against the CRC of everything before it; a mismatch is an answer, no error
(41_frame.md R137). -/
def execValidate (s : State) : Host.Outcome State Fault Refusal :=
  s.withChecksumField fun field =>
    .next (s.answer (truthWord (crc32 (s.buf.slice 0 (s.len.toNat - Config.fcsLen)) == field)) [])

/-- FCS: the checksum field as it stands (41_frame.md R138). -/
def execFcs (s : State) : Host.Outcome State Fault Refusal :=
  s.withChecksumField fun field => .next (s.answer field [])

/-- FSTAT: PARSED, NSEG and LEN packed into one word (41_frame.md R139). -/
def execFstat (s : State) : Host.Outcome State Fault Refusal :=
  .next (s.answer (statWord s.parsed s.nseg s.len) [])

/-- GETDST: the destination address (41_frame.md R140). -/
def execGetdst (s : State) : Host.Outcome State Fault Refusal :=
  .next (s.answer 0 s.hdr.dst.bytes)

/-- GETSRC: the source address (41_frame.md R141). -/
def execGetsrc (s : State) : Host.Outcome State Fault Refusal :=
  .next (s.answer 0 s.hdr.src.bytes)

/-- GETBUF: LEN and the frame bytes (41_frame.md R142). -/
def execGetbuf (s : State) : Host.Outcome State Fault Refusal :=
  s.withBytes 0 s.len.toNat fun bytes => .next (s.answer (s.len.setWidth 32) bytes)

end Sys2Proof.Machine
end

