-- ==== Sys2Proof/Machine/Segments.lean ====
section
/-! DEFINITION. The segment read-out commands SEGKIND, GETYPE and GDATA (42_segment.md R161 to R163). -/

namespace Sys2Proof.Machine

/-- SEGKIND: which variant an entry is (42_segment.md R161). -/
def execSegkind (sel : Sel) (s : State) : Host.Outcome State Fault Refusal :=
  s.withSegment sel fun e => .next (s.answer (kindWord e.kind) [])

/-- GETYPE: the type field of a Generic entry (42_segment.md R162). -/
def execGetype (sel : Sel) (s : State) : Host.Outcome State Fault Refusal :=
  s.withGeneric sel fun etherType _ _ => .next (s.answer (etherType.setWidth 32) [])

/-- GDATA: the length and the data bytes of a Generic entry (42_segment.md R163). -/
def execGdata (sel : Sel) (s : State) : Host.Outcome State Fault Refusal :=
  s.withGeneric sel fun _ doff dlen =>
    s.withBytes doff.toNat dlen.toNat fun bytes => .next (s.answer (dlen.setWidth 32) bytes)

end Sys2Proof.Machine
end

