-- ==== Sys2Proof/Machine/Vlan.lean ====
section
/-! DEFINITION. The VLAN tag commands: the accessors TPID, TCI, PCP, DEI, VID (43_vlan.md R172 to R176) and the mutators
SETPCP, SETDEI, SETVID (R177 to R179). -/

namespace Sys2Proof.Machine

/-- TPID: the constant type value of a tag (43_vlan.md R172). -/
def execTpid (sel : Sel) (s : State) : Host.Outcome State Fault Refusal :=
  s.withTag sel fun _ => .next (s.answer (Config.tpidVlan.setWidth 32) [])

/-- TCI: the whole TCI of a tag (43_vlan.md R173). -/
def execTci (sel : Sel) (s : State) : Host.Outcome State Fault Refusal :=
  s.withTag sel fun tci => .next (s.answer (tci.setWidth 32) [])

/-- PCP: bits 15:13 of the TCI (43_vlan.md R174). -/
def execPcp (sel : Sel) (s : State) : Host.Outcome State Fault Refusal :=
  s.withTag sel fun tci => .next (s.answer ((tciPcp tci).setWidth 32) [])

/-- DEI: bit 12 of the TCI (43_vlan.md R175). -/
def execDei (sel : Sel) (s : State) : Host.Outcome State Fault Refusal :=
  s.withTag sel fun tci => .next (s.answer ((tciDei tci).setWidth 32) [])

/-- VID: bits 11:0 of the TCI (43_vlan.md R176). -/
def execVid (sel : Sel) (s : State) : Host.Outcome State Fault Refusal :=
  s.withTag sel fun tci => .next (s.answer ((tciVid tci).setWidth 32) [])

/-- SETPCP: accepts 0 to 7 (43_vlan.md R177). -/
def execSetpcp (sel : Sel) (value : Half) (s : State) : Host.Outcome State Fault Refusal :=
  s.mutateTag sel value Config.pcpMax tciSetPcp

/-- SETDEI: accepts 0 and 1 (43_vlan.md R178). -/
def execSetdei (sel : Sel) (value : Half) (s : State) : Host.Outcome State Fault Refusal :=
  s.mutateTag sel value Config.deiMax tciSetDei

/-- SETVID: accepts 0 to 4095 (43_vlan.md R179). -/
def execSetvid (sel : Sel) (value : Half) (s : State) : Host.Outcome State Fault Refusal :=
  s.mutateTag sel value Config.vidMax tciSetVid

end Sys2Proof.Machine
end

