-- ==== Sys2Proof/Machine/Dispatch.lean ====
section
/-! DEFINITION. The one match that gives each command its meaning (30_encoding.md R86). -/

namespace Sys2Proof.Machine

/-- The effect of a command on a state. -/
def exec (i : Instr) (s : State) : Host.Outcome State Fault Refusal :=
  match i with
  | .crc32 data => Sys2Proof.Machine.execCrc32 data s
  | .crcinit => Sys2Proof.Machine.execCrcinit s
  | .crcupd data => Sys2Proof.Machine.execCrcupd data s
  | .crcfin => Sys2Proof.Machine.execCrcfin s
  | .load data => Sys2Proof.Machine.execLoad data s
  | .validate => Sys2Proof.Machine.execValidate s
  | .fcs => Sys2Proof.Machine.execFcs s
  | .fstat => Sys2Proof.Machine.execFstat s
  | .getdst => Sys2Proof.Machine.execGetdst s
  | .getsrc => Sys2Proof.Machine.execGetsrc s
  | .getbuf => Sys2Proof.Machine.execGetbuf s
  | .segkind sel => Sys2Proof.Machine.execSegkind sel s
  | .getype sel => Sys2Proof.Machine.execGetype sel s
  | .gdata sel => Sys2Proof.Machine.execGdata sel s
  | .tpid sel => Sys2Proof.Machine.execTpid sel s
  | .tci sel => Sys2Proof.Machine.execTci sel s
  | .pcp sel => Sys2Proof.Machine.execPcp sel s
  | .dei sel => Sys2Proof.Machine.execDei sel s
  | .vid sel => Sys2Proof.Machine.execVid sel s
  | .setpcp sel value => Sys2Proof.Machine.execSetpcp sel value s
  | .setdei sel value => Sys2Proof.Machine.execSetdei sel value s
  | .setvid sel value => Sys2Proof.Machine.execSetvid sel value s

end Sys2Proof.Machine
end

