-- ==== Sys2Proof/Machine/Step.lean ====
section
/-! DEFINITION. One step: the engine takes the host's next move and answers it (00_scope.md R6, R7). -/

namespace Sys2Proof.Machine

/-- One transaction, one reset, or one idle step. A whole command runs on the state from which it has been taken off
the port; an illegal word is answered `IllegalCommand` (30_encoding.md R87); with nothing whole at the port nothing
changes (00_scope.md R6, 70_reset_and_hazards.md R227). -/
def step (s : State) : Host.Outcome State Fault Refusal :=
  match fetch s.input with
  | .command i rest => exec i (s.withInput rest)
  | .illegal _ rest => .next ((s.withInput rest).raise .illegalCommand)
  | .reset rest => .next (State.assertReset rest)
  | .none => .next s

/-- The state with a table word, its payload zero, as the host's next command at the port, ahead of what the port
already holds. -/
def State.withFetchWord (s : State) (nbits w : Nat) : State :=
  s.withInput ((tableBytes nbits w).map .byte ++ s.input)

end Sys2Proof.Machine
end

