-- ==== Sys2Proof/Machine/Assembler.lean ====
section
/-! DEFINITION. The text form of commands (30_encoding.md R89) and the pseudo-commands with their expansions (R90).
Both are conveniences of the host; the engine sees the commands they stand for. -/

namespace Sys2Proof.Machine

/-! ### Pseudo-commands -/

/-- The pseudo-commands of 30_encoding.md R90. -/
inductive Pseudo where
  | clear
  | crclong (parts : List (List Byte))
  | gethdr
  | settci (sel : Sel) (pcp dei vid : Half)
deriving DecidableEq, Repr

/-- The commands a pseudo-command expands to (30_encoding.md R90). -/
def Pseudo.expand : Pseudo → List Instr
  | .clear => [.load []]
  | .crclong parts => [.crcinit] ++ parts.map .crcupd ++ [.crcfin]
  | .gethdr => [.getdst, .getsrc]
  | .settci sel pcp dei vid => [.setpcp sel pcp, .setdei sel dei, .setvid sel vid]

/-- Commands one after the other, stopping at the first whose status is not OK (30_encoding.md R90, SETTCI). -/
def execUntilError (is : List Instr) (s : State) : Host.Outcome State Fault Refusal :=
  match is with
  | [] => .next s
  | i :: rest =>
    match exec i s with
    | .next t => if t.response.map Response.status = some .ok then execUntilError rest t else .next t
    | .fault r => .fault r
    | .refused r => .refused r

/-! ### Reading a line -/

/-- The line without its comment: a `;` outside quotes starts one. -/
def stripComment (quoted : Bool) : List Char → List Char
  | [] => []
  | '"' :: rest => '"' :: stripComment (!quoted) rest
  | ';' :: rest => if quoted then ';' :: stripComment quoted rest else []
  | c :: rest => c :: stripComment quoted rest

/-- Without leading spaces. -/
def trimLeft (cs : List Char) : List Char := cs.dropWhile (· == ' ')

/-- Without leading and trailing spaces. -/
def trimBoth (cs : List Char) : List Char := (trimLeft (trimLeft cs).reverse).reverse

/-- The parts between commas that stand outside quotes. -/
def splitCommas (quoted : Bool) : List Char → List (List Char)
  | [] => [[]]
  | c :: rest =>
    if c = ',' ∧ ¬ quoted then [] :: splitCommas quoted rest
    else
      match splitCommas (if c = '"' then !quoted else quoted) rest with
      | first :: others => (c :: first) :: others
      | [] => [[c]]

/-- The value of a digit in a base up to 16. -/
def digitValue (base : Nat) (c : Char) : Option Nat :=
  let v :=
    if '0'.toNat ≤ c.toNat ∧ c.toNat ≤ '9'.toNat then c.toNat - '0'.toNat
    else if 'A'.toNat ≤ c.toNat ∧ c.toNat ≤ 'F'.toNat then c.toNat - 'A'.toNat + 10
    else if 'a'.toNat ≤ c.toNat ∧ c.toNat ≤ 'f'.toNat then c.toNat - 'a'.toNat + 10
    else base
  if v < base then some v else none

/-- Digits in a base, most significant first, onto the number read so far. -/
def digitsValue (base acc : Nat) : List Char → Option Nat
  | [] => some acc
  | c :: rest =>
    match digitValue base c with
    | some v => digitsValue base (acc * base + v) rest
    | none => none

/-- A number: decimal, or hexadecimal after `0x` (30_encoding.md R89). -/
def numberOf : List Char → Option Nat
  | [] => none
  | '0' :: 'x' :: [] => none
  | '0' :: 'x' :: ds => digitsValue 16 0 ds
  | ds => digitsValue 10 0 ds

/-- A hex string, two digits per byte, first byte first (30_encoding.md R89). -/
def hexBytes : List Char → Option (List Byte)
  | [] => some []
  | [_] => none
  | h :: l :: rest =>
    match digitValue 16 h, digitValue 16 l, hexBytes rest with
    | some hv, some lv, some bs => some (BitVec.ofNat 8 (hv * 16 + lv) :: bs)
    | _, _, _ => none

/-- The characters of a quoted ASCII string after its opening quote, one byte each. -/
def quotedBytes : List Char → Option (List Byte)
  | [] => none
  | '"' :: [] => some []
  | '"' :: _ :: _ => none
  | c :: rest =>
    if c.toNat < 128 then (quotedBytes rest).map (BitVec.ofNat 8 c.toNat :: ·) else none

/-- A payload operand: `[]`, a quoted string or a hex string, at most as long as a word can announce
(30_encoding.md R89, R82). -/
def payloadOf (cs : List Char) : Option (List Byte) :=
  let bytes :=
    match cs with
    | [] => none
    | ['[', ']'] => some []
    | '"' :: rest => quotedBytes rest
    | hex => hexBytes hex
  bytes.filter fun bs => decide (bs.length ≤ Config.payloadMax)

/-- A selector operand, 0 to 1023. -/
def selOf (cs : List Char) : Option Sel :=
  ((numberOf cs).filter fun n => decide (n < 1024)).map (BitVec.ofNat 10)

/-- A value operand, 0 to 65535. -/
def valueOf (cs : List Char) : Option Half :=
  ((numberOf cs).filter fun n => decide (n < 65536)).map (BitVec.ofNat 16)

/-- A format N line: no operand. -/
def lineN (ops : List (List Char)) (i : Instr) : Option (List Instr) :=
  match ops with
  | [] => some [i]
  | _ :: _ => none

/-- A format P line: one payload. -/
def lineP (ops : List (List Char)) (f : List Byte → Instr) : Option (List Instr) :=
  match ops with
  | [d] => (payloadOf d).map fun bs => [f bs]
  | _ => none

/-- A format S line: one selector. -/
def lineS (ops : List (List Char)) (f : Sel → Instr) : Option (List Instr) :=
  match ops with
  | [a] => (selOf a).map fun sel => [f sel]
  | _ => none

/-- A format V line: a selector and a value. -/
def lineV (ops : List (List Char)) (f : Sel → Half → Instr) : Option (List Instr) :=
  match ops with
  | [a, v] =>
    match selOf a, valueOf v with
    | some sel, some value => some [f sel value]
    | _, _ => none
  | _ => none

/-- The line of a pseudo-command, by its expansion (30_encoding.md R90). -/
def linePseudo (mnemonic : String) (ops : List (List Char)) : Option (List Instr) :=
  match mnemonic, ops with
  | "CLEAR", [] => some Pseudo.clear.expand
  | "CRCLONG", _ :: _ => (ops.mapM payloadOf).map fun parts => (Pseudo.crclong parts).expand
  | "GETHDR", [] => some Pseudo.gethdr.expand
  | "SETTCI", [a, p, d, v] =>
    match selOf a, valueOf p, valueOf d, valueOf v with
    | some sel, some pcp, some dei, some vid => some (Pseudo.settci sel pcp dei vid).expand
    | _, _, _, _ => none
  | _, _ => none

/-- The commands one line of text stands for, none where it is not of the form of 30_encoding.md R89 or R90. -/
def assemble (line : List Char) : Option (List Instr) :=
  let text := trimBoth (stripComment false line)
  let tail := trimLeft (text.dropWhile (· != ' '))
  let ops := if tail = [] then [] else (splitCommas false tail).map trimBoth
  match String.ofList (text.takeWhile (· != ' ')) with
  | "CRC32" => lineP ops .crc32
  | "CRCINIT" => lineN ops .crcinit
  | "CRCUPD" => lineP ops .crcupd
  | "CRCFIN" => lineN ops .crcfin
  | "LOAD" => lineP ops .load
  | "VALIDATE" => lineN ops .validate
  | "FCS" => lineN ops .fcs
  | "FSTAT" => lineN ops .fstat
  | "GETDST" => lineN ops .getdst
  | "GETSRC" => lineN ops .getsrc
  | "GETBUF" => lineN ops .getbuf
  | "SEGKIND" => lineS ops .segkind
  | "GETYPE" => lineS ops .getype
  | "GDATA" => lineS ops .gdata
  | "TPID" => lineS ops .tpid
  | "TCI" => lineS ops .tci
  | "PCP" => lineS ops .pcp
  | "DEI" => lineS ops .dei
  | "VID" => lineS ops .vid
  | "SETPCP" => lineV ops .setpcp
  | "SETDEI" => lineV ops .setdei
  | "SETVID" => lineV ops .setvid
  | other => linePseudo other ops

end Sys2Proof.Machine
end

