-- ==== Sys2Proof/Safety.lean ====
section
/-! DEFINITION. What claims about the frame engine are stated in: the invariants of 10_state.md R31, the form of a
response, the classes of commands, and the wire form of a frame. -/

namespace Sys2Proof.Machine

/-- What entry `j` of the table says about the frame it was parsed from (10_state.md R31 (vii), (viii)): a tag lies
whole before the checksum region and its two type bytes are the TPID; a Generic entry is the last one, its data run
from behind its type field to the checksum region, and its type is the field at the cursor, not the TPID. -/
def Segment.fits (s : State) (j : Nat) : Segment → Prop
  | .vlanTag _ =>
    Config.hdrLen + 4 * j + Config.tagLen + Config.fcsLen ≤ s.len.toNat ∧
      s.buf.read2 (Config.hdrLen + 4 * j) = Config.tpidVlan
  | .generic etherType doff dlen =>
    j + 1 = s.nseg.toNat ∧ doff.toNat = Config.hdrLen + 4 * j + Config.typeLen ∧
      doff.toNat + dlen.toNat + Config.fcsLen = s.len.toNat ∧
      etherType = s.buf.read2 (Config.hdrLen + 4 * j) ∧ etherType ≠ Config.tpidVlan

/-- The invariants that hold after reset and after every command (10_state.md R31), and the model's own: BUF is in
canonical form and the table holds exactly NSEG entries. -/
structure State.Inv (s : State) : Prop where
  canonical : s.buf.wf = true
  lenBound : s.len.toNat ≤ Config.bufCap
  zeroBeyond : ∀ a, s.len.toNat ≤ a → s.buf.byteAt a = 0
  header : s.hdr = Header.ofBuf s.buf
  unparsedEmpty : s.parsed = false → s.nseg = 0
  countBound : s.nseg.toNat ≤ Config.nsegMax
  tableLength : s.seg.length = s.nseg.toNat
  entries : ∀ (j : Nat) (e : Segment), s.seg[j]? = some e → e.fits s j
  someLength : 0 < s.nseg.toNat → 18 ≤ s.len.toNat

/-- A response is of the form of 30_encoding.md R84 and R80: nothing but the status on an error, and at most 1518
output bytes. -/
def Response.wf (r : Response) : Prop :=
  (r.status ≠ .ok → r.result = 0 ∧ r.out = []) ∧ r.out.length ≤ Config.bufCap

/-- The commands that write no state: every one except LOAD, SETPCP, SETDEI, SETVID, CRCINIT and CRCUPD
(70_reset_and_hazards.md R223). -/
def readOnly : Instr → Bool
  | .crc32 _ => true
  | .crcinit => false
  | .crcupd _ => false
  | .crcfin => true
  | .load _ => false
  | .validate => true
  | .fcs => true
  | .fstat => true
  | .getdst => true
  | .getsrc => true
  | .getbuf => true
  | .segkind _ => true
  | .getype _ => true
  | .gdata _ => true
  | .tpid _ => true
  | .tci _ => true
  | .pcp _ => true
  | .dei _ => true
  | .vid _ => true
  | .setpcp _ _ => false
  | .setdei _ _ => false
  | .setvid _ _ => false

/-- The commands that rewrite a field of one tag, with the entry they name (43_vlan.md R180). -/
def mutates : Instr → Option Sel
  | .setpcp sel _ => some sel
  | .setdei sel _ => some sel
  | .setvid sel _ => some sel
  | .crc32 _ => none
  | .crcinit => none
  | .crcupd _ => none
  | .crcfin => none
  | .load _ => none
  | .validate => none
  | .fcs => none
  | .fstat => none
  | .getdst => none
  | .getsrc => none
  | .getbuf => none
  | .segkind _ => none
  | .getype _ => none
  | .gdata _ => none
  | .tpid _ => none
  | .tci _ => none
  | .pcp _ => none
  | .dei _ => none
  | .vid _ => none

/-- The error statuses a command can raise, the column "raised by" of 60_exceptions.md R190 read by command. -/
def raisable : Instr → List Status
  | .crc32 _ => []
  | .crcinit => []
  | .crcupd _ => []
  | .crcfin => []
  | .load _ => [.frameTooLarge, .truncatedSegment]
  | .validate => [.frameTooShort]
  | .fcs => [.frameTooShort]
  | .fstat => []
  | .getdst => []
  | .getsrc => []
  | .getbuf => []
  | .segkind _ => [.badIndex]
  | .getype _ => [.badIndex, .wrongKind]
  | .gdata _ => [.badIndex, .wrongKind]
  | .tpid _ => [.badIndex, .wrongKind]
  | .tci _ => [.badIndex, .wrongKind]
  | .pcp _ => [.badIndex, .wrongKind]
  | .dei _ => [.badIndex, .wrongKind]
  | .vid _ => [.badIndex, .wrongKind]
  | .setpcp _ _ => [.badIndex, .wrongKind, .invalidFieldValue]
  | .setdei _ _ => [.badIndex, .wrongKind, .invalidFieldValue]
  | .setvid _ _ => [.badIndex, .wrongKind, .invalidFieldValue]

/-- The bytes of the frame a segment stands for: a tag 4, a Generic its type field and its data (41_frame.md R136). -/
def Segment.wireLength : Segment → Nat
  | .vlanTag _ => Config.tagLen
  | .generic _ _ dlen => Config.typeLen + dlen.toNat

/-- A 16-bit field on the wire, most significant byte first (20_memory.md R52). -/
def halfBytes (h : Half) : List Byte := [h.extractLsb' 8 8, h.extractLsb' 0 8]

/-- A VLAN tag on the wire: TPID, then TCI (41_frame.md R134 (b)). -/
def tagBytes (tci : Half) : List Byte := halfBytes 0x8100#16 ++ halfBytes tci

/-- The tags of a frame on the wire, first tag first. -/
def tagsBytes (tcis : List Half) : List Byte := tcis.flatMap tagBytes

end Sys2Proof.Machine
end

