-- ==== Sys2Proof/Certificates/Slice0/Obligations.lean ====
section
/-! DEFINITION. The statements about the frame engine, for the provers. Each docstring names the rules of spec/ it
formalises. A next state is written as the old state with the fields that change, so each such equation is also the
frame: every element not named, every byte of BUF among them, is as before. -/

open Sys2Proof Sys2Proof.Machine

/-! ### The checksum engine (40_crc.md) -/

/-- R110 and R111: the byte step is eight rounds after an XOR into the low 8 bits, with the four worked values and the
two traces of R110; the run is its fold in index order; the checksum is the complement of the run from all ones, zero on
no bytes. -/
def Obligations.CrcIsTheBitSerialFold : Prop :=
  let round : Word → Word := fun a => if a.getLsbD 0 = true then (a >>> 1) ^^^ 0xEDB88320#32 else a >>> 1
  (∀ (acc : Word) (b : Byte), crcByte acc b = round^[8] (acc ^^^ b.setWidth 32)) ∧
  (List.range 9).map (fun k => round^[k] 0x00000001#32) =
    [0x00000001, 0xEDB88320, 0x76DC4190, 0x3B6E20C8, 0x1DB71064, 0x0EDB8832, 0x076DC419, 0xEE0E612C, 0x77073096] ∧
  (List.range 9).map (fun k => round^[k] 0xFFFFFFCE#32) =
    [0xFFFFFFCE, 0x7FFFFFE7, 0xD2477CD3, 0x849B3D49, 0xAFF51D84, 0x57FA8EC2, 0x2BFD4761, 0xF8462090, 0x7C231048] ∧
  crcByte 0x00000000 0x01 = 0x77073096 ∧ crcByte 0x00000000 0x80 = 0xEDB88320 ∧
  crcByte 0x00000000 0x00 = 0x00000000 ∧ crcByte 0xFFFFFFFF 0x31 = 0x7C231048 ∧
  (∀ acc, crcRun acc [] = acc) ∧
  (∀ acc b rest, crcRun acc (b :: rest) = crcRun (crcByte acc b) rest) ∧
  (∀ data, crc32 data = ~~~ crcRun 0xFFFFFFFF#32 data) ∧
  crc32 [] = 0x00000000#32

/-- R116 (c): the table form of the byte step, and three entries of the table. -/
def Obligations.CrcByteHasTheTableForm : Prop :=
  (∀ (acc : Word) (b : Byte),
    crcByte acc b = (acc >>> 8) ^^^ crcByte 0x00000000 ((acc ^^^ b.setWidth 32).setWidth 8)) ∧
  crcByte 0x00000000 0x00 = 0x00000000 ∧ crcByte 0x00000000 0x01 = 0x77073096 ∧
  crcByte 0x00000000 0x80 = 0xEDB88320

/-- R116 (a): a run over two sequences one after the other is the run over the two joined. -/
def Obligations.CrcRunChunks : Prop :=
  ∀ (acc : Word) (a b : List Byte), crcRun (crcRun acc a) b = crcRun acc (a ++ b)

/-- R116 (d): appending a message's checksum least significant byte first leaves the fixed residue, whatever the
message; appending it most significant byte first does not, as "123456789" shows. -/
def Obligations.CrcResidueIsFixed : Prop :=
  (∀ m : List Byte,
    crcRun 0xFFFFFFFF#32 (m ++ (wordBytes (crc32 m)).reverse) = 0xDEBB20E3#32 ∧
    crc32 (m ++ (wordBytes (crc32 m)).reverse) = 0x2144DF1C#32) ∧
  (let m : List Byte := [0x31, 0x32, 0x33, 0x34, 0x35, 0x36, 0x37, 0x38, 0x39]
   crc32 (m ++ wordBytes (crc32 m)) = 0x3CC9742C#32)

/-- R112: CRC32's word, and that it answers the checksum of its payload and writes no state; the empty payload and
"123456789" give the values of the rule. -/
def Obligations.Crc32AnswersTheChecksum : Prop :=
  (∀ data : List Byte, data.length ≤ 65535 →
    decodeCommand (0x04000000#32 + BitVec.ofNat 32 data.length) data = .command (.crc32 data)) ∧
  (∀ (w : Word) (data : List Byte), opField w = 0x01#6 → selField w ≠ 0 →
    decodeCommand w data = .illegal .reservedNotZero) ∧
  (∀ (data : List Byte) (s : State),
    exec (.crc32 data) s = .next { s with response := some ⟨.ok, ~~~ crcRun 0xFFFFFFFF#32 data, []⟩ }) ∧
  (∀ s : State, exec (.crc32 []) s = .next { s with response := some ⟨.ok, 0x00000000, []⟩ }) ∧
  (∀ s : State, exec (.crc32 [0x31, 0x32, 0x33, 0x34, 0x35, 0x36, 0x37, 0x38, 0x39]) s =
    .next { s with response := some ⟨.ok, 0xCBF43926, []⟩ })

/-- R113: CRCINIT's word; ACC becomes all ones and nothing else changes, so twice is once; with CRCFIN it answers the
checksum of nothing. -/
def Obligations.CrcinitStartsTheStream : Prop :=
  decodeCommand 0x08000000 [] = .command .crcinit ∧
  (∀ s : State, exec .crcinit s = .next { s with acc := 0xFFFFFFFF, response := some ⟨.ok, 0, []⟩ }) ∧
  (∀ s t u : State, exec .crcinit s = .next t → exec .crcinit t = .next u → u = t) ∧
  State.reset.acc = 0xFFFFFFFF ∧
  (∀ s t : State, exec .crcinit s = .next t →
    exec .crcfin t = .next { t with response := some ⟨.ok, 0x00000000, []⟩ })

/-- R114: CRCUPD's word; ACC becomes the run over the payload from ACC, nothing else changes, and no bytes leave ACC
as it was. -/
def Obligations.CrcupdFeedsTheStream : Prop :=
  (∀ data : List Byte, data.length ≤ 65535 →
    decodeCommand (0x0C000000#32 + BitVec.ofNat 32 data.length) data = .command (.crcupd data)) ∧
  (∀ (data : List Byte) (s : State),
    exec (.crcupd data) s = .next { s with acc := crcRun s.acc data, response := some ⟨.ok, 0, []⟩ }) ∧
  (∀ s : State, exec (.crcupd []) s = .next { s with response := some ⟨.ok, 0, []⟩ }) ∧
  (∀ (a b : List Byte) (s t u v : State), exec (.crcupd a) s = .next t → exec (.crcupd b) t = .next u →
    exec (.crcupd (a ++ b)) s = .next v → u.acc = v.acc)

/-- R115: CRCFIN's word; it answers the complement of ACC, which keeps its value, so a second one answers the same. -/
def Obligations.CrcfinReadsTheStream : Prop :=
  decodeCommand 0x10000000 [] = .command .crcfin ∧
  (∀ s : State, exec .crcfin s = .next { s with response := some ⟨.ok, ~~~ s.acc, []⟩ }) ∧
  (∀ s t : State, exec .crcfin s = .next t → exec .crcfin t = .next t)

/-- R115 and R90 (CRCLONG): a stream of pieces from CRCINIT to CRCFIN answers what CRC32 answers for the pieces joined,
and leaves the run in ACC. -/
def Obligations.StreamEqualsOneShot : Prop :=
  ∀ (parts : List (List Byte)) (s : State),
    execUntilError (Pseudo.crclong parts).expand s =
      .next { s with
        acc := crcRun 0xFFFFFFFF#32 parts.flatten
        response := some ⟨.ok, crc32 parts.flatten, []⟩ }

/-! ### LOAD (41_frame.md R130 to R136) -/

/-- R131, R191: an oversized LOAD changes no element, takes its payload off the port, and 1518 bytes are not
oversized. The port of the second clause is the model's own (assumption log 1). -/
def Obligations.LoadTooLargeChangesNothing : Prop :=
  (∀ (data : List Byte) (s : State), 1518 < data.length →
    exec (.load data) s = .next { s with response := some ⟨.frameTooLarge, 0, []⟩ }) ∧
  (∀ (data : List Byte) (rest : List HostEvent) (s : State), 1518 < data.length → data.length ≤ 65535 →
    s.input = (encode (.load data)).map .byte ++ rest →
    step s = .next { s with input := rest, response := some ⟨.frameTooLarge, 0, []⟩ }) ∧
  (∀ (data : List Byte) (s : State), data.length ≤ 1518 →
    ∃ t r, exec (.load data) s = .next t ∧ t.response = some r ∧ r.status ≠ .frameTooLarge)

/-- R132, R133: whatever the segment loop then does, a LOAD of at most 1518 bytes answers, and leaves the payload in BUF
with zero above it, its length in LEN, its first twelve bytes (zero where it has none) in HDR, and ACC as it was. -/
def Obligations.LoadStoresFrameAndHeader : Prop :=
  ∀ (data : List Byte) (s : State), data.length ≤ 1518 →
    ∃ t, exec (.load data) s = .next t ∧
      (∀ a, t.buf.byteAt a = data.getD a 0x00) ∧ t.len.toNat = data.length ∧
      t.hdr.dst = ⟨data.getD 0 0, data.getD 1 0, data.getD 2 0, data.getD 3 0, data.getD 4 0, data.getD 5 0⟩ ∧
      t.hdr.src = ⟨data.getD 6 0, data.getD 7 0, data.getD 8 0, data.getD 9 0, data.getD 10 0, data.getD 11 0⟩ ∧
      t.acc = s.acc ∧ t.input = s.input

/-- R134 (b), (c), R136: a frame of header, tags, and either nothing or one typed payload, then four bytes of checksum
field, loads with one entry per tag in wire order and the payload as one Generic entry behind them. -/
def Obligations.LoadParsesTagsThenPayload : Prop :=
  (∀ (header fcs : List Byte) (tcis : List Half) (s : State), header.length = 12 → fcs.length = 4 →
    (header ++ tagsBytes tcis ++ fcs).length ≤ 1518 →
    ∃ t, exec (.load (header ++ tagsBytes tcis ++ fcs)) s = .next t ∧
      t.response = some ⟨.ok, 0, []⟩ ∧ t.parsed = true ∧ t.nseg.toNat = tcis.length ∧
      t.seg = tcis.map .vlanTag) ∧
  (∀ (header fcs data : List Byte) (tcis : List Half) (etherType : Half) (s : State), header.length = 12 →
    fcs.length = 4 → etherType ≠ 0x8100#16 →
    (header ++ tagsBytes tcis ++ (halfBytes etherType ++ data) ++ fcs).length ≤ 1518 →
    ∃ t, exec (.load (header ++ tagsBytes tcis ++ (halfBytes etherType ++ data) ++ fcs)) s = .next t ∧
      t.response = some ⟨.ok, 0, []⟩ ∧ t.parsed = true ∧ t.nseg.toNat = tcis.length + 1 ∧
      t.seg = tcis.map .vlanTag ++
        [.generic etherType (BitVec.ofNat 11 (14 + 4 * tcis.length)) (BitVec.ofNat 11 data.length)])

/-- R135, R193: when one byte stands where a type field is wanted, or the TPID with fewer than two bytes behind it,
LOAD answers TruncatedSegment with the new frame and header in place, no segments, and PARSED 0. -/
def Obligations.LoadTruncatedKeepsTheNewFrame : Prop :=
  ∀ (header fcs tail : List Byte) (tcis : List Half) (s : State), header.length = 12 → fcs.length = 4 →
    (tail.length = 1 ∨ ∃ more : List Byte, more.length ≤ 1 ∧ tail = [0x81, 0x00] ++ more) →
    (header ++ tagsBytes tcis ++ tail ++ fcs).length ≤ 1518 →
    ∃ t, exec (.load (header ++ tagsBytes tcis ++ tail ++ fcs)) s = .next t ∧
      t.response = some ⟨.truncatedSegment, 0, []⟩ ∧ t.seg = [] ∧ t.nseg = 0 ∧ t.parsed = false ∧
      (∀ a, t.buf.byteAt a = (header ++ tagsBytes tcis ++ tail ++ fcs).getD a 0x00) ∧
      t.len.toNat = (header ++ tagsBytes tcis ++ tail ++ fcs).length ∧
      t.hdr.dst.bytes ++ t.hdr.src.bytes = header ∧ t.acc = s.acc

/-- R134, corner cases: a frame of at most 16 bytes loads with no segments. -/
def Obligations.LoadShortHasNoSegments : Prop :=
  ∀ (data : List Byte) (s : State), data.length ≤ 16 →
    ∃ t, exec (.load data) s = .next t ∧ t.response = some ⟨.ok, 0, []⟩ ∧ t.parsed = true ∧ t.nseg = 0 ∧ t.seg = []

/-- R134, R136: from 16 bytes up LOAD accepts exactly the frames made of header, tags, at most one typed payload, and
checksum field; every other one that fits the buffer is answered TruncatedSegment. -/
def Obligations.LoadAcceptsExactlyTheWireFormat : Prop :=
  ∀ (data : List Byte) (s : State), 16 ≤ data.length → data.length ≤ 1518 →
    ∃ t, exec (.load data) s = .next t ∧
      (t.response = some ⟨.ok, 0, []⟩ ∨ t.response = some ⟨.truncatedSegment, 0, []⟩) ∧
      (t.response = some ⟨.ok, 0, []⟩ ↔
        ∃ (header fcs tail : List Byte) (tcis : List Half), header.length = 12 ∧ fcs.length = 4 ∧
          data = header ++ tagsBytes tcis ++ tail ++ fcs ∧
          (tail = [] ∨ ∃ (etherType : Half) (rest : List Byte),
            etherType ≠ 0x8100#16 ∧ tail = halfBytes etherType ++ rest))

/-- R136, idempotence: what LOAD leaves in the frame's elements, and what it answers, is a function of its payload. -/
def Obligations.LoadIgnoresHistory : Prop :=
  ∀ (data : List Byte) (s s' t t' : State), data.length ≤ 1518 →
    exec (.load data) s = .next t → exec (.load data) s' = .next t' →
    t.buf = t'.buf ∧ t.len = t'.len ∧ t.hdr = t'.hdr ∧ t.seg = t'.seg ∧ t.nseg = t'.nseg ∧
      t.parsed = t'.parsed ∧ t.response = t'.response

/-- R136 and R31 (ix): after a LOAD of 16 bytes or more that answers OK, header, segments and checksum field tile the
frame exactly, and every tag's TCI is the two bytes behind its type field. -/
def Obligations.LoadTilesTheFrame : Prop :=
  ∀ (data : List Byte) (s t : State), 16 ≤ data.length → data.length ≤ 1518 → exec (.load data) s = .next t →
    t.response = some ⟨.ok, 0, []⟩ →
    12 + (t.seg.map Segment.wireLength).sum + 4 = data.length ∧
      ∀ (j : Nat) (tci : Half), t.seg[j]? = some (.vlanTag tci) → tci = t.buf.read2 (12 + 4 * j + 2)

/-! ### Reading the frame back (41_frame.md R137 to R142) -/

/-- R52, R53: two-byte and four-byte reads of BUF are big-endian, at any offset. -/
def Obligations.BufferReadsAreBigEndian : Prop :=
  ∀ (m : Memory) (a : Nat),
    (m.read2 a).toNat = (m.byteAt a).toNat * 256 + (m.byteAt (a + 1)).toNat ∧
    (m.read4 a).toNat = (m.byteAt a).toNat * 2 ^ 24 + (m.byteAt (a + 1)).toNat * 2 ^ 16 +
      (m.byteAt (a + 2)).toNat * 2 ^ 8 + (m.byteAt (a + 3)).toNat ∧
    (m.read2 a = 0x8100#16 ↔ m.byteAt a = 0x81#8 ∧ m.byteAt (a + 1) = 0x00#8)

/-- R137: VALIDATE's word; FrameTooShort below 16 bytes; else 1 or 0 as the checksum field equals the CRC of the bytes
before it. The bound on LEN is part of the invariant that `StepKeepsTheInvariants` states. -/
def Obligations.ValidateComparesTheChecksum : Prop :=
  decodeCommand 0x24000000 [] = .command .validate ∧
  (∀ s : State, s.len.toNat < 16 →
    exec .validate s = .next { s with response := some ⟨.frameTooShort, 0, []⟩ }) ∧
  (∀ s : State, 16 ≤ s.len.toNat → s.len.toNat ≤ 1518 →
    exec .validate s = .next { s with
      response := some ⟨.ok,
        if crc32 ((List.range (s.len.toNat - 4)).map s.buf.byteAt) = s.buf.read4 (s.len.toNat - 4) then 1 else 0, []⟩ })

/-- R138: FCS's word; FrameTooShort below 16 bytes, at reset among others; else the last four bytes of the frame,
big-endian. -/
def Obligations.FcsReadsTheChecksumField : Prop :=
  decodeCommand 0x28000000 [] = .command .fcs ∧
  (∀ s : State, s.len.toNat < 16 → exec .fcs s = .next { s with response := some ⟨.frameTooShort, 0, []⟩ }) ∧
  (∀ s : State, 16 ≤ s.len.toNat → s.len.toNat ≤ 1518 →
    exec .fcs s = .next { s with
      response := some ⟨.ok, wordOfBytes (s.buf.byteAt (s.len.toNat - 4)) (s.buf.byteAt (s.len.toNat - 3))
        (s.buf.byteAt (s.len.toNat - 2)) (s.buf.byteAt (s.len.toNat - 1)), []⟩ })

/-- R139: FSTAT's word; PARSED in bit 31, NSEG in bits 24:16, LEN in bits 10:0, the rest zero. -/
def Obligations.FstatPacksTheStatus : Prop :=
  decodeCommand 0x2C000000 [] = .command .fstat ∧
  (∀ s : State, exec .fstat s = .next { s with
    response := some ⟨.ok,
      BitVec.ofNat 32 (s.parsed.toNat * 2 ^ 31 + s.nseg.toNat * 2 ^ 16 + s.len.toNat), []⟩ })

/-- R140, R141: GETDST's and GETSRC's words; each answers its six bytes of HDR, in every state. -/
def Obligations.HeaderReadsAnswerHdr : Prop :=
  decodeCommand 0x30000000 [] = .command .getdst ∧
  decodeCommand 0x34000000 [] = .command .getsrc ∧
  (∀ s : State, exec .getdst s = .next { s with
    response := some ⟨.ok, 0,
      [s.hdr.dst.b0, s.hdr.dst.b1, s.hdr.dst.b2, s.hdr.dst.b3, s.hdr.dst.b4, s.hdr.dst.b5]⟩ }) ∧
  (∀ s : State, exec .getsrc s = .next { s with
    response := some ⟨.ok, 0,
      [s.hdr.src.b0, s.hdr.src.b1, s.hdr.src.b2, s.hdr.src.b3, s.hdr.src.b4, s.hdr.src.b5]⟩ })

/-- R142: GETBUF's word; it answers LEN and the LEN bytes of BUF from offset 0. -/
def Obligations.GetbufReadsTheFrame : Prop :=
  decodeCommand 0x38000000 [] = .command .getbuf ∧
  (∀ s : State, s.len.toNat ≤ 1518 →
    exec .getbuf s = .next { s with
      response := some ⟨.ok, BitVec.ofNat 32 s.len.toNat, (List.range s.len.toNat).map s.buf.byteAt⟩ })

/-- R142 and R133 as the host sees them: after a LOAD of at most 1518 bytes, whatever it answered, GETBUF answers
exactly the payload, and from 12 bytes up GETDST and GETSRC its first two groups of six. -/
def Obligations.LoadReadsBack : Prop :=
  ∀ (data : List Byte) (s t : State), data.length ≤ 1518 → exec (.load data) s = .next t →
    exec .getbuf t = .next { t with response := some ⟨.ok, BitVec.ofNat 32 data.length, data⟩ } ∧
    (12 ≤ data.length →
      exec .getdst t = .next { t with response := some ⟨.ok, 0, data.take 6⟩ } ∧
      exec .getsrc t = .next { t with response := some ⟨.ok, 0, (data.drop 6).take 6⟩ })

/-- R137 and R138 on a loaded frame: FCS answers the last four bytes, and VALIDATE answers 1 exactly when they are the
big-endian image of the CRC of everything before them. -/
def Obligations.LoadedFrameValidatesIffChecksumMatches : Prop :=
  ∀ (front : List Byte) (a b c d : Byte) (s : State), 12 ≤ front.length → front.length + 4 ≤ 1518 →
    ∃ t, exec (.load (front ++ [a, b, c, d])) s = .next t ∧
      exec .fcs t = .next { t with response := some ⟨.ok, wordOfBytes a b c d, []⟩ } ∧
      exec .validate t = .next { t with
        response := some ⟨.ok, if wordBytes (crc32 front) = [a, b, c, d] then 1 else 0, []⟩ }

/-! ### Segments (42_segment.md) -/

/-- R160, R195: every command with a selector answers BadIndex, and changes nothing, when the selector is NSEG or more,
whatever its other operand. -/
def Obligations.SelectorBeyondCountIsBadIndex : Prop :=
  ∀ (i : Instr) (sel : Sel) (s : State), i.selector = some sel → s.nseg.toNat ≤ sel.toNat →
    exec i s = .next { s with response := some ⟨.badIndex, 0, []⟩ }

/-- R160, R171, R196: below NSEG, GETYPE and GDATA answer WrongKind on a tag, and every command of 43_vlan.md answers
it on a Generic entry, a mutator whatever its value; nothing changes. -/
def Obligations.WrongVariantIsWrongKind : Prop :=
  (∀ (i : Instr) (sel : Sel) (tci : Half) (s : State), i ∈ [Instr.getype sel, .gdata sel] →
    sel.toNat < s.nseg.toNat → s.seg[sel.toNat]? = some (.vlanTag tci) →
    exec i s = .next { s with response := some ⟨.wrongKind, 0, []⟩ }) ∧
  (∀ (i : Instr) (sel : Sel) (value etherType : Half) (doff dlen : BitVec 11) (s : State),
    i ∈ [Instr.tpid sel, .tci sel, .pcp sel, .dei sel, .vid sel, .setpcp sel value, .setdei sel value,
      .setvid sel value] →
    sel.toNat < s.nseg.toNat → s.seg[sel.toNat]? = some (.generic etherType doff dlen) →
    exec i s = .next { s with response := some ⟨.wrongKind, 0, []⟩ })

/-- R161: SEGKIND's word; BadIndex at NSEG and above; else 1 for a tag and 0 for a Generic entry. -/
def Obligations.SegkindNamesTheVariant : Prop :=
  (∀ sel : Sel, decodeCommand (0x40000000#32 + sel.setWidth 32 * 0x10000#32) [] = .command (.segkind sel)) ∧
  (∀ (sel : Sel) (s : State), s.nseg.toNat ≤ sel.toNat →
    exec (.segkind sel) s = .next { s with response := some ⟨.badIndex, 0, []⟩ }) ∧
  (∀ (sel : Sel) (tci : Half) (s : State), sel.toNat < s.nseg.toNat → s.seg[sel.toNat]? = some (.vlanTag tci) →
    exec (.segkind sel) s = .next { s with response := some ⟨.ok, 1, []⟩ }) ∧
  (∀ (sel : Sel) (etherType : Half) (doff dlen : BitVec 11) (s : State), sel.toNat < s.nseg.toNat →
    s.seg[sel.toNat]? = some (.generic etherType doff dlen) →
    exec (.segkind sel) s = .next { s with response := some ⟨.ok, 0, []⟩ })

/-- R162: GETYPE's word; BadIndex, then WrongKind; else the entry's type field, zero-extended. -/
def Obligations.GetypeReadsTheEtherType : Prop :=
  (∀ sel : Sel, decodeCommand (0x44000000#32 + sel.setWidth 32 * 0x10000#32) [] = .command (.getype sel)) ∧
  (∀ (sel : Sel) (s : State), s.nseg.toNat ≤ sel.toNat →
    exec (.getype sel) s = .next { s with response := some ⟨.badIndex, 0, []⟩ }) ∧
  (∀ (sel : Sel) (tci : Half) (s : State), sel.toNat < s.nseg.toNat → s.seg[sel.toNat]? = some (.vlanTag tci) →
    exec (.getype sel) s = .next { s with response := some ⟨.wrongKind, 0, []⟩ }) ∧
  (∀ (sel : Sel) (etherType : Half) (doff dlen : BitVec 11) (s : State), sel.toNat < s.nseg.toNat →
    s.seg[sel.toNat]? = some (.generic etherType doff dlen) →
    exec (.getype sel) s = .next { s with response := some ⟨.ok, BitVec.ofNat 32 etherType.toNat, []⟩ })

/-- R163: GDATA's word; BadIndex, then WrongKind; else the entry's length and its slice of BUF. The bound on the slice
is part of the invariant that `StepKeepsTheInvariants` states. -/
def Obligations.GdataReadsTheData : Prop :=
  (∀ sel : Sel, decodeCommand (0x48000000#32 + sel.setWidth 32 * 0x10000#32) [] = .command (.gdata sel)) ∧
  (∀ (sel : Sel) (s : State), s.nseg.toNat ≤ sel.toNat →
    exec (.gdata sel) s = .next { s with response := some ⟨.badIndex, 0, []⟩ }) ∧
  (∀ (sel : Sel) (tci : Half) (s : State), sel.toNat < s.nseg.toNat → s.seg[sel.toNat]? = some (.vlanTag tci) →
    exec (.gdata sel) s = .next { s with response := some ⟨.wrongKind, 0, []⟩ }) ∧
  (∀ (sel : Sel) (etherType : Half) (doff dlen : BitVec 11) (s : State), sel.toNat < s.nseg.toNat →
    s.seg[sel.toNat]? = some (.generic etherType doff dlen) → doff.toNat + dlen.toNat ≤ 1518 →
    exec (.gdata sel) s = .next { s with
      response := some ⟨.ok, BitVec.ofNat 32 dlen.toNat,
        (List.range dlen.toNat).map fun k => s.buf.byteAt (doff.toNat + k)⟩ })

/-! ### VLAN tags (43_vlan.md) -/

/-- R170: the fields of a TCI by arithmetic, the pack formula, and that pack and unpack are inverse. -/
def Obligations.TciFieldsPackAndUnpack : Prop :=
  (∀ t : Half, (tciPcp t).toNat = t.toNat / 8192 ∧ (tciDei t).toNat = t.toNat / 4096 % 2 ∧
    (tciVid t).toNat = t.toNat % 4096 ∧ tciPack (tciPcp t) (tciDei t) (tciVid t) = t) ∧
  (∀ (p : BitVec 3) (d : BitVec 1) (v : BitVec 12),
    (tciPack p d v).toNat = p.toNat * 8192 + d.toNat * 4096 + v.toNat ∧
    tciPcp (tciPack p d v) = p ∧ tciDei (tciPack p d v) = d ∧ tciVid (tciPack p d v) = v)

/-- R172 to R176: the accessors' words, and on a tag the constant TPID, the whole TCI, and its three fields; the errors
of the same commands are `SelectorBeyondCountIsBadIndex` and `WrongVariantIsWrongKind`. -/
def Obligations.VlanAccessorsReadTheTag : Prop :=
  (∀ sel : Sel,
    decodeCommand (0x60000000#32 + sel.setWidth 32 * 0x10000#32) [] = .command (.tpid sel) ∧
    decodeCommand (0x64000000#32 + sel.setWidth 32 * 0x10000#32) [] = .command (.tci sel) ∧
    decodeCommand (0x68000000#32 + sel.setWidth 32 * 0x10000#32) [] = .command (.pcp sel) ∧
    decodeCommand (0x6C000000#32 + sel.setWidth 32 * 0x10000#32) [] = .command (.dei sel) ∧
    decodeCommand (0x70000000#32 + sel.setWidth 32 * 0x10000#32) [] = .command (.vid sel)) ∧
  (∀ (i : Instr) (sel : Sel) (s : State), i ∈ [Instr.tpid sel, .tci sel, .pcp sel, .dei sel, .vid sel] →
    (s.nseg.toNat ≤ sel.toNat → exec i s = .next { s with response := some ⟨.badIndex, 0, []⟩ }) ∧
    (∀ (etherType : Half) (doff dlen : BitVec 11), sel.toNat < s.nseg.toNat →
      s.seg[sel.toNat]? = some (.generic etherType doff dlen) →
      exec i s = .next { s with response := some ⟨.wrongKind, 0, []⟩ })) ∧
  (∀ (sel : Sel) (t : Half) (s : State), sel.toNat < s.nseg.toNat → s.seg[sel.toNat]? = some (.vlanTag t) →
    exec (.tpid sel) s = .next { s with response := some ⟨.ok, 0x00008100, []⟩ } ∧
    exec (.tci sel) s = .next { s with response := some ⟨.ok, BitVec.ofNat 32 t.toNat, []⟩ } ∧
    exec (.pcp sel) s = .next { s with response := some ⟨.ok, BitVec.ofNat 32 (t.toNat / 8192), []⟩ } ∧
    exec (.dei sel) s = .next { s with response := some ⟨.ok, BitVec.ofNat 32 (t.toNat / 4096 % 2), []⟩ } ∧
    exec (.vid sel) s = .next { s with response := some ⟨.ok, BitVec.ofNat 32 (t.toNat % 4096), []⟩ })

/-- R177: SETPCP's word; BadIndex, WrongKind, InvalidFieldValue above 7, in that order; else bits 15:13 of the tag's
TCI become the value and bits 12:0 stay. -/
def Obligations.SetpcpWritesThePriority : Prop :=
  (∀ (sel : Sel) (value : Half),
    decodeCommand (0x74000000#32 + sel.setWidth 32 * 0x10000#32 + value.setWidth 32) []
      = .command (.setpcp sel value)) ∧
  (∀ (sel : Sel) (value : Half) (s : State), s.nseg.toNat ≤ sel.toNat →
    exec (.setpcp sel value) s = .next { s with response := some ⟨.badIndex, 0, []⟩ }) ∧
  (∀ (sel : Sel) (value etherType : Half) (doff dlen : BitVec 11) (s : State), sel.toNat < s.nseg.toNat →
    s.seg[sel.toNat]? = some (.generic etherType doff dlen) →
    exec (.setpcp sel value) s = .next { s with response := some ⟨.wrongKind, 0, []⟩ }) ∧
  (∀ (sel : Sel) (value t : Half) (s : State), sel.toNat < s.nseg.toNat →
    s.seg[sel.toNat]? = some (.vlanTag t) → 7 < value.toNat →
    exec (.setpcp sel value) s = .next { s with response := some ⟨.invalidFieldValue, 0, []⟩ }) ∧
  (∀ (sel : Sel) (value t : Half) (s : State), sel.toNat < s.nseg.toNat →
    s.seg[sel.toNat]? = some (.vlanTag t) → value.toNat ≤ 7 →
    exec (.setpcp sel value) s =
      .next { s with
        seg := s.seg.set sel.toNat (.vlanTag (BitVec.ofNat 16 (value.toNat * 8192 + t.toNat % 8192)))
        response := some ⟨.ok, 0, []⟩ })

/-- R178: SETDEI's word; BadIndex, WrongKind, InvalidFieldValue above 1, in that order; else bit 12 of the tag's TCI
becomes the value and the other bits stay. -/
def Obligations.SetdeiWritesTheDropBit : Prop :=
  (∀ (sel : Sel) (value : Half),
    decodeCommand (0x78000000#32 + sel.setWidth 32 * 0x10000#32 + value.setWidth 32) []
      = .command (.setdei sel value)) ∧
  (∀ (sel : Sel) (value : Half) (s : State), s.nseg.toNat ≤ sel.toNat →
    exec (.setdei sel value) s = .next { s with response := some ⟨.badIndex, 0, []⟩ }) ∧
  (∀ (sel : Sel) (value etherType : Half) (doff dlen : BitVec 11) (s : State), sel.toNat < s.nseg.toNat →
    s.seg[sel.toNat]? = some (.generic etherType doff dlen) →
    exec (.setdei sel value) s = .next { s with response := some ⟨.wrongKind, 0, []⟩ }) ∧
  (∀ (sel : Sel) (value t : Half) (s : State), sel.toNat < s.nseg.toNat →
    s.seg[sel.toNat]? = some (.vlanTag t) → 1 < value.toNat →
    exec (.setdei sel value) s = .next { s with response := some ⟨.invalidFieldValue, 0, []⟩ }) ∧
  (∀ (sel : Sel) (value t : Half) (s : State), sel.toNat < s.nseg.toNat →
    s.seg[sel.toNat]? = some (.vlanTag t) → value.toNat ≤ 1 →
    exec (.setdei sel value) s =
      .next { s with
        seg := s.seg.set sel.toNat
          (.vlanTag (BitVec.ofNat 16 (t.toNat / 8192 * 8192 + value.toNat * 4096 + t.toNat % 4096)))
        response := some ⟨.ok, 0, []⟩ })

/-- R179: SETVID's word; BadIndex, WrongKind, InvalidFieldValue above 4095, in that order; else bits 11:0 of the tag's
TCI become the value and bits 15:12 stay. -/
def Obligations.SetvidWritesTheIdentifier : Prop :=
  (∀ (sel : Sel) (value : Half),
    decodeCommand (0x7C000000#32 + sel.setWidth 32 * 0x10000#32 + value.setWidth 32) []
      = .command (.setvid sel value)) ∧
  (∀ (sel : Sel) (value : Half) (s : State), s.nseg.toNat ≤ sel.toNat →
    exec (.setvid sel value) s = .next { s with response := some ⟨.badIndex, 0, []⟩ }) ∧
  (∀ (sel : Sel) (value etherType : Half) (doff dlen : BitVec 11) (s : State), sel.toNat < s.nseg.toNat →
    s.seg[sel.toNat]? = some (.generic etherType doff dlen) →
    exec (.setvid sel value) s = .next { s with response := some ⟨.wrongKind, 0, []⟩ }) ∧
  (∀ (sel : Sel) (value t : Half) (s : State), sel.toNat < s.nseg.toNat →
    s.seg[sel.toNat]? = some (.vlanTag t) → 4095 < value.toNat →
    exec (.setvid sel value) s = .next { s with response := some ⟨.invalidFieldValue, 0, []⟩ }) ∧
  (∀ (sel : Sel) (value t : Half) (s : State), sel.toNat < s.nseg.toNat →
    s.seg[sel.toNat]? = some (.vlanTag t) → value.toNat ≤ 4095 →
    exec (.setvid sel value) s =
      .next { s with
        seg := s.seg.set sel.toNat (.vlanTag (BitVec.ofNat 16 (t.toNat / 4096 * 4096 + value.toNat)))
        response := some ⟨.ok, 0, []⟩ })

/-- R180: a mutator changes no element but the one entry it names, and of that entry's TCI no field but its own; so
VALIDATE, FCS and GETBUF answer after it what they answered before it, and a LOAD of any frame that fits leaves the
segments it would have left without it. -/
def Obligations.MutatorsTouchOneFieldOnly : Prop :=
  ∀ (i : Instr) (sel : Sel) (s t : State), mutates i = some sel → exec i s = .next t →
    (∀ a, t.buf.byteAt a = s.buf.byteAt a) ∧ t.buf = s.buf ∧ t.len = s.len ∧ t.hdr = s.hdr ∧ t.nseg = s.nseg ∧
    t.parsed = s.parsed ∧ t.acc = s.acc ∧ t.input = s.input ∧
    (∀ j : Nat, j ≠ sel.toNat → t.seg[j]? = s.seg[j]?) ∧
    (∀ old : Half, s.seg[sel.toNat]? = some (.vlanTag old) →
      ∃ new : Half, t.seg[sel.toNat]? = some (.vlanTag new) ∧
        ((∀ value, i ≠ .setpcp sel value) → tciPcp new = tciPcp old) ∧
        ((∀ value, i ≠ .setdei sel value) → tciDei new = tciDei old) ∧
        ((∀ value, i ≠ .setvid sel value) → tciVid new = tciVid old)) ∧
    (∀ (reader : Instr) (u : State), reader ∈ [Instr.validate, .fcs, .getbuf] → exec reader s = .next u →
      ∃ v, exec reader t = .next v ∧ v.response = u.response) ∧
    (∀ data : List Byte, data.length ≤ 1518 → ∃ v u, exec (.load data) t = .next v ∧ exec (.load data) s = .next u ∧
      v.seg = u.seg ∧ v.nseg = u.nseg)

/-- R181: after accepted SETPCP, SETDEI and SETVID on one tag, in any order, the tag's TCI is the three values packed,
whatever it was, and the accessors read them back. -/
def Obligations.MutatorsRoundTripInAnyOrder : Prop :=
  ∀ (cmds : List Instr) (sel : Sel) (p d v old : Half) (s : State),
    cmds.Perm [.setpcp sel p, .setdei sel d, .setvid sel v] → p.toNat ≤ 7 → d.toNat ≤ 1 → v.toNat ≤ 4095 →
    sel.toNat < s.nseg.toNat → s.seg[sel.toNat]? = some (.vlanTag old) →
    ∃ t, execUntilError cmds s = .next t ∧
      t.seg[sel.toNat]? = some (.vlanTag (tciPack (p.setWidth 3) (d.setWidth 1) (v.setWidth 12))) ∧
      exec (.pcp sel) t = .next { t with response := some ⟨.ok, p.setWidth 32, []⟩ } ∧
      exec (.dei sel) t = .next { t with response := some ⟨.ok, d.setWidth 32, []⟩ } ∧
      exec (.vid sel) t = .next { t with response := some ⟨.ok, v.setWidth 32, []⟩ } ∧
      exec (.tci sel) t = .next { t with
        response := some ⟨.ok, BitVec.ofNat 32 (p.toNat * 8192 + d.toNat * 4096 + v.toNat), []⟩ }

/-! ### What each command leaves alone, over all commands -/

/-- R27, R226: no command but CRCINIT and CRCUPD changes ACC. -/
def Obligations.OnlyTheStreamWritesAcc : Prop :=
  ∀ (i : Instr) (s t : State), exec i s = .next t → i ≠ .crcinit → (∀ data, i ≠ .crcupd data) → t.acc = s.acc

/-- R21, R22, R23, R25, R26: no command but LOAD changes a byte of BUF, or LEN, HDR, NSEG or PARSED; and no command
takes anything off the port. The port is the model's own (assumption log 1). -/
def Obligations.OnlyLoadWritesTheFrame : Prop :=
  ∀ (i : Instr) (s t : State), exec i s = .next t →
    t.input = s.input ∧
    ((∀ data, i ≠ .load data) →
      (∀ a, t.buf.byteAt a = s.buf.byteAt a) ∧ t.buf = s.buf ∧ t.len = s.len ∧ t.hdr = s.hdr ∧ t.nseg = s.nseg ∧
        t.parsed = s.parsed)

/-- R20, the column "written by" for SEG: no command but LOAD and the mutators changes an entry, and a mutator only the
entry it names; none of them changes the number of entries. -/
def Obligations.OnlyLoadAndMutatorsWriteSeg : Prop :=
  ∀ (i : Instr) (s t : State), exec i s = .next t → (∀ data, i ≠ .load data) →
    t.seg.length = s.seg.length ∧
      ∀ j : Nat, (∀ sel, mutates i = some sel → sel.toNat ≠ j) → t.seg[j]? = s.seg[j]?

/-- R223: the read-only commands change no element at all, so between two of them in either order each answers the
same. -/
def Obligations.ReadOnlyCommandsCommute : Prop :=
  (∀ (i : Instr) (s t : State), readOnly i = true → exec i s = .next t → t = { s with response := t.response }) ∧
  (∀ (i j : Instr) (s t u : State), readOnly i = true → exec i s = .next t → exec j s = .next u →
    exec j t = .next u)

/-- R200, R84: an error carries result 0 and no output, and, but for TruncatedSegment, leaves every element as it
was. -/
def Obligations.ErrorsLeaveTheState : Prop :=
  ∀ (i : Instr) (s t : State) (r : Response), exec i s = .next t → t.response = some r → r.status ≠ .ok →
    r.result = 0 ∧ r.out = [] ∧ (r.status ≠ .truncatedSegment → t = { s with response := some r })

/-- R200: the same command in the state an error left gives the same error. -/
def Obligations.ErrorsRepeat : Prop :=
  ∀ (i : Instr) (s t : State) (r : Response), exec i s = .next t → t.response = some r → r.status ≠ .ok →
    ∃ u, exec i t = .next u ∧ u.response = some r

/-- R80, R84, R190: every command that answers gives a response of the form of R84 with at most 1518 output bytes, and
no error but those the table of R190 gives that command; the statuses have the numbers of that table. -/
def Obligations.ResponsesHaveTheirForm : Prop :=
  (∀ (i : Instr) (s t : State), exec i s = .next t →
    ∃ r, t.response = some r ∧ (r.status = .ok ∨ r.status ∈ raisable i) ∧
      (r.status ≠ .ok → r.result = 0 ∧ r.out = []) ∧ r.out.length ≤ 1518) ∧
  [Status.ok, .frameTooLarge, .frameTooShort, .truncatedSegment, .invalidFieldValue, .badIndex, .wrongKind,
    .illegalCommand].map (fun e => e.code.toNat) = [0, 1, 2, 3, 4, 5, 6, 7]

/-- R30, R33: nothing a command does depends on the response before it or on what the host sends after it. The two
fields for them are the model's own (assumption log 1 and 2). -/
def Obligations.CommandsIgnoreThePort : Prop :=
  ∀ (i : Instr) (s t : State) (input : List HostEvent) (response : Option Response), exec i s = .next t →
    exec i { s with input := input, response := response } = .next { t with input := input }

/-! ### Invariants (10_state.md R31) -/

/-- R31, R32: the invariants hold after reset. The canonical form of BUF and the length of the table are the model's
own (assumption log 5 and 6). -/
def Obligations.InvariantsHoldAtReset : Prop := State.reset.Inv

/-- R31: every step keeps the invariants, from every state that meets them. The canonical form of BUF and the length
of the table are the model's own (assumption log 5 and 6). -/
def Obligations.StepKeepsTheInvariants : Prop :=
  ∀ s t : State, s.Inv → step s = .next t → t.Inv

/-- R7, R8: in a state that meets the invariants every step answers a next state; no command and no bytes stop the
engine. That an idle step answers the same state is the model's reading (assumption log 4). -/
def Obligations.StepAlwaysAnswers : Prop :=
  ∀ s : State, s.Inv → ∃ t, step s = .next t

/-- The model's own stops (assumption log 6 and 7): a command faults only where LEN or a Generic entry points past the
end of BUF, or where the table is shorter than NSEG; and no command is refused. -/
def Obligations.FaultsNameTheirCause : Prop :=
  (∀ (i : Instr) (s : State) (r : Fault), exec i s = .fault r →
    (r = .outsideBuffer ∧ (1518 < s.len.toNat ∨
      ∃ (j : Nat) (etherType : Half) (doff dlen : BitVec 11),
        s.seg[j]? = some (.generic etherType doff dlen) ∧ 1518 < doff.toNat + dlen.toNat)) ∨
    (r = .segmentAbsent ∧ s.seg.length < s.nseg.toNat)) ∧
  (∀ (i : Instr) (s : State) (r : Refusal), exec i s ≠ .refused r)

/-- R26: while PARSED is 0 every command with a selector answers BadIndex. -/
def Obligations.UnparsedMeansBadIndex : Prop :=
  ∀ (i : Instr) (sel : Sel) (s : State), s.Inv → s.parsed = false → i.selector = some sel →
    exec i s = .next { s with response := some ⟨.badIndex, 0, []⟩ }

/-- The model's own canonical form of BUF (assumption log 5): two canonical memories that read alike are equal. -/
def Obligations.CanonicalMemoriesAreEqual : Prop :=
  ∀ m n : Memory, m.wf = true → n.wf = true → (∀ a, m.byteAt a = n.byteAt a) → m = n

/-! ### Encoding (30_encoding.md) -/

/-- R81, R83, R85, R86: reading back the bytes of any well-formed command, with any bytes behind them, gives that
command with every operand, and exactly those bytes behind it. That a command carries its payload and not its length
apart is the model's reading (assumption log 14). -/
def Obligations.DecodeInvertsEncode : Prop :=
  ∀ (i : Instr) (rest : List Byte), i.wf = true → decode (encode i ++ rest) = .command i rest

/-- R86, R88: a word and payload that decode are the encoding of the command they decode to, so no two words with the
same payload select the same command and operands. -/
def Obligations.EncodeInvertsDecode : Prop :=
  ∀ (w : Word) (payload : List Byte) (i : Instr), payload.length = plen w →
    decodeCommand w payload = .command i → i.wf = true ∧ encodeWord i = w ∧ i.payload = payload

/-- R86, R87, R88: a word selects the command of the opcode table's row it matches, and no command when it matches none;
no word matches two rows; the unassigned values of `op` are those R87 lists. -/
def Obligations.DecoderFollowsTheOpcodeTable : Prop :=
  (∀ (w : Word) (payload : List Byte), ∀ row ∈ opcodeTable, row.selects w = true →
    ∃ i, decodeCommand w payload = .command i ∧ i.mnemonic = row.mnemonic) ∧
  (∀ (w : Word) (payload : List Byte) (i : Instr), decodeCommand w payload = .command i →
    ∃ row ∈ opcodeTable, row.selects w = true ∧ row.mnemonic = i.mnemonic) ∧
  (∀ w : Word, ∀ row ∈ opcodeTable, ∀ row' ∈ opcodeTable,
    row.selects w = true → row'.selects w = true → row = row') ∧
  (∀ (w : Word) (payload : List Byte), decodeCommand w payload = .illegal .unassignedOp ↔
    (opField w).toNat ∈ [0x00, 0x05, 0x06, 0x07, 0x0F, 0x13, 0x14, 0x15, 0x16, 0x17] ∨ 0x20 ≤ (opField w).toNat)

/-- R87, R197: a word that matches no row announces no payload; a step that finds it takes its four bytes and no more,
answers IllegalCommand, and changes no element. The port is the model's own (assumption log 1). -/
def Obligations.IllegalWordIsAnsweredAndSkipped : Prop :=
  ∀ (w : Word) (rest : List HostEvent) (s : State), (∀ row ∈ opcodeTable, row.selects w = false) →
    s.input = (wordBytes w).map .byte ++ rest →
    plen w = 0 ∧ step s = .next { s with input := rest, response := some ⟨.illegalCommand, 0, []⟩ }

/-- R7, R83, R85: a step that finds a whole command at the port runs it on the state from which its word and payload
have been taken, in both forms: from the command's own bytes, and from whatever decodes. The port is the model's own
(assumption log 1). -/
def Obligations.StepRunsTheDecodedCommand : Prop :=
  (∀ (i : Instr) (rest : List HostEvent) (s : State), i.wf = true → s.input = (encode i).map .byte ++ rest →
    step s = exec i { s with input := rest }) ∧
  (∀ (i : Instr) (bytes : List Byte) (s : State), decode (leadingBytes s.input) = .command i bytes →
    step s = exec i { s with input := bytes.map .byte ++ afterBytes s.input })

/-- R227, R220: with fewer bytes than a word, or than a word and its payload, at the port a step changes nothing; when
the host asserts reset behind such bytes, or with none, the step abandons them and leaves the reset state. The port,
where a reset may land, and that waiting is a next state are the model's own (assumption log 1, 3 and 4). -/
def Obligations.PartialCommandWaitsOrResets : Prop :=
  (∀ bytes : List Byte, bytes.length < 4 → decode bytes = .incomplete) ∧
  (∀ (w : Word) (payload : List Byte), payload.length < plen w →
    decode (wordBytes w ++ payload) = .incomplete) ∧
  (∀ (bytes : List Byte) (s : State), decode bytes = .incomplete →
    (s.input = bytes.map .byte → step s = .next s) ∧
    (∀ rest : List HostEvent, s.input = bytes.map .byte ++ .reset :: rest →
      step s = .next { State.reset with input := rest }))

/-- R85: the bytes of a command and of a response on the transport, each word most significant byte first, with the
rule's two examples. -/
def Obligations.SerialFormIsBigEndian : Prop :=
  (∀ i : Instr, encode i =
    [BitVec.ofNat 8 ((encodeWord i).toNat / 2 ^ 24), BitVec.ofNat 8 ((encodeWord i).toNat / 2 ^ 16),
      BitVec.ofNat 8 ((encodeWord i).toNat / 2 ^ 8), BitVec.ofNat 8 (encodeWord i).toNat] ++ i.payload) ∧
  (∀ r : Response, r.serial =
    [r.status.code, 0x00, BitVec.ofNat 8 (r.out.length / 2 ^ 8), BitVec.ofNat 8 r.out.length,
      BitVec.ofNat 8 (r.result.toNat / 2 ^ 24), BitVec.ofNat 8 (r.result.toNat / 2 ^ 16),
      BitVec.ofNat 8 (r.result.toNat / 2 ^ 8), BitVec.ofNat 8 r.result.toNat] ++ r.out) ∧
  encode (.setvid 1 4095) = [0x7C, 0x01, 0x0F, 0xFF] ∧
  Response.serial ⟨.ok, 0, []⟩ = [0x00, 0x00, 0x00, 0x00, 0x00, 0x00, 0x00, 0x00] ∧
  encode .fstat = [0x2C, 0x00, 0x00, 0x00] ∧
  Response.serial ⟨.ok, 0x80010014, []⟩ = [0x00, 0x00, 0x00, 0x00, 0x80, 0x01, 0x00, 0x14]

/-- R86, a word per family written out from the table: CRCUPD of three bytes, LOAD of two, GDATA 5, SETVID 1023 65535. -/
def Obligations.SampleWordsDecode : Prop :=
  decode [0x0C, 0x00, 0x00, 0x03, 0x61, 0x62, 0x63] = .command (.crcupd [0x61, 0x62, 0x63]) [] ∧
  decode [0x20, 0x00, 0x00, 0x02, 0xAA, 0xBB, 0x24] = .command (.load [0xAA, 0xBB]) [0x24] ∧
  decode [0x48, 0x05, 0x00, 0x00] = .command (.gdata 5) [] ∧
  decode [0x7F, 0xFF, 0xFF, 0xFF] = .command (.setvid 1023 65535) [] ∧
  decode [0x20, 0x01, 0x00, 0x14, 0x24] = .illegal .reservedNotZero [0x24]

/-! ### Reset (10_state.md R32, 70_reset_and_hazards.md R221) -/

/-- R32, R221: the reset values, what the commands answer in the reset state, and that the empty load differs from it
in PARSED only. -/
def Obligations.ResetStateAnswers : Prop :=
  State.reset.len = 0 ∧ State.reset.parsed = false ∧ State.reset.nseg = 0 ∧
  (∀ a, State.reset.buf.byteAt a = 0x00) ∧ State.reset.hdr.dst.bytes = [0, 0, 0, 0, 0, 0] ∧
  State.reset.hdr.src.bytes = [0, 0, 0, 0, 0, 0] ∧ State.reset.acc = 0xFFFFFFFF ∧
  exec .fstat State.reset = .next { State.reset with response := some ⟨.ok, 0x00000000, []⟩ } ∧
  exec .getdst State.reset = .next { State.reset with response := some ⟨.ok, 0, [0, 0, 0, 0, 0, 0]⟩ } ∧
  exec .getsrc State.reset = .next { State.reset with response := some ⟨.ok, 0, [0, 0, 0, 0, 0, 0]⟩ } ∧
  exec .getbuf State.reset = .next { State.reset with response := some ⟨.ok, 0, []⟩ } ∧
  exec .fcs State.reset = .next { State.reset with response := some ⟨.frameTooShort, 0, []⟩ } ∧
  exec .validate State.reset = .next { State.reset with response := some ⟨.frameTooShort, 0, []⟩ } ∧
  exec .crcfin State.reset = .next { State.reset with response := some ⟨.ok, 0x00000000, []⟩ } ∧
  (∀ data, exec (.crc32 data) State.reset = .next { State.reset with response := some ⟨.ok, crc32 data, []⟩ }) ∧
  (∀ (i : Instr) (sel : Sel), i.selector = some sel →
    exec i State.reset = .next { State.reset with response := some ⟨.badIndex, 0, []⟩ }) ∧
  exec (.load []) State.reset = .next { State.reset with parsed := true, response := some ⟨.ok, 0, []⟩ }
end

