-- ==== Sys2Proof/Laws/Encoding.lean ====
section
/-! SUPPORT. The fields of an assembled word, the bytes of a word, and the port in front of a byte sequence. -/

namespace Sys2Proof

@[simp] theorem opField_mkWord (op : BitVec 6) (sel : Sel) (imm : Half) : opField (mkWord op sel imm) = op := by
  ext i hi
  simp only [opField, mkWord, BitVec.getElem_extractLsb', BitVec.getLsbD_append]
  have h1 : ¬ 26 + i < 16 := by omega
  have h2 : ¬ 26 + i - 16 < 10 := by omega
  simp [h1, h2, show 26 + i - 16 - 10 = i by omega, BitVec.getLsbD_eq_getElem hi]

@[simp] theorem selField_mkWord (op : BitVec 6) (sel : Sel) (imm : Half) : selField (mkWord op sel imm) = sel := by
  ext i hi
  simp only [selField, mkWord, BitVec.getElem_extractLsb', BitVec.getLsbD_append]
  have h1 : ¬ 16 + i < 16 := by omega
  have h2 : 16 + i - 16 < 10 := by omega
  simp [h1, show 16 + i - 16 = i by omega, hi]

@[simp] theorem immField_mkWord (op : BitVec 6) (sel : Sel) (imm : Half) : immField (mkWord op sel imm) = imm := by
  ext i hi
  simp only [immField, mkWord, BitVec.getElem_extractLsb', BitVec.getLsbD_append]
  simp [hi]

/-- A word is put together from its own fields (30_encoding.md R81). -/
theorem mkWord_fields (w : Word) : mkWord (opField w) (selField w) (immField w) = w := by
  apply BitVec.eq_of_getLsbD_eq
  intro i hi
  simp only [opField, selField, immField, mkWord, BitVec.getLsbD_append, BitVec.getLsbD_extractLsb']
  have key : ∀ n, n = i → w.getLsbD n = w.getLsbD i := by rintro _ rfl; rfl
  split
  · rename_i h; simp only [h, decide_true, Bool.true_and]; exact key _ (by omega)
  · split
    · rename_i h; simp only [h, decide_true, Bool.true_and]; exact key _ (by omega)
    · have h : i - 16 - 10 < 6 := by omega
      simp only [h, decide_true, Bool.true_and]; exact key _ (by omega)

/-- A word is put together from its own bytes (30_encoding.md R85). -/
theorem wordOfBytes_bytes (w : Word) :
    wordOfBytes (w.extractLsb' 24 8) (w.extractLsb' 16 8) (w.extractLsb' 8 8) (w.extractLsb' 0 8) = w := by
  apply BitVec.eq_of_getLsbD_eq
  intro i hi
  simp only [wordOfBytes, BitVec.getLsbD_append, BitVec.getLsbD_extractLsb']
  have key : ∀ n, n = i → w.getLsbD n = w.getLsbD i := by rintro _ rfl; rfl
  split
  · rename_i h; simp only [h, decide_true, Bool.true_and]; exact key _ (by omega)
  · split
    · rename_i h; simp only [h, decide_true, Bool.true_and]; exact key _ (by omega)
    · split
      · rename_i h; simp only [h, decide_true, Bool.true_and]; exact key _ (by omega)
      · have h : i - 8 - 8 - 8 < 8 := by omega
        simp only [h, decide_true, Bool.true_and]; exact key _ (by omega)

@[simp] theorem length_wordBytes (w : Word) : (wordBytes w).length = 4 := rfl

/-- Reading four bytes of a word and what follows is reading the word. -/
theorem decode_wordBytes (w : Word) (rest : List Byte) :
    decode (wordBytes w ++ rest) =
      if rest.length < plen w then .incomplete
      else
        match decodeCommand w (rest.take (plen w)) with
        | .command i => .command i (rest.drop (plen w))
        | .illegal why => .illegal why rest := by
  simp only [wordBytes, List.cons_append, List.nil_append, decode, wordOfBytes_bytes] <;> rfl

namespace Machine

@[simp] theorem leadingBytes_bytes (bytes : List Byte) (rest : List HostEvent) :
    leadingBytes (bytes.map .byte ++ rest) = bytes ++ leadingBytes rest := by
  induction bytes with
  | nil => rfl
  | cons b bs ih => simp [leadingBytes, ih]

@[simp] theorem afterBytes_bytes (bytes : List Byte) (rest : List HostEvent) :
    afterBytes (bytes.map .byte ++ rest) = afterBytes rest := by
  induction bytes with
  | nil => rfl
  | cons b bs ih => simpa [afterBytes] using ih

/-- The port is its leading bytes and what stands behind them. -/
@[simp] theorem leading_append_after (input : List HostEvent) :
    (leadingBytes input).map .byte ++ afterBytes input = input := by
  induction input with
  | nil => rfl
  | cons e rest ih => cases e with
    | byte b => simpa [leadingBytes, afterBytes] using ih
    | reset => rfl

/-- Behind the leading bytes stands nothing or an assertion of reset. -/
theorem afterBytes_cases (input : List HostEvent) :
    afterBytes input = [] ∨ ∃ rest, afterBytes input = .reset :: rest := by
  induction input with
  | nil => exact .inl rfl
  | cons e rest ih => cases e with
    | byte b => simpa [afterBytes] using ih
    | reset => exact .inr ⟨rest, rfl⟩

end Machine

end Sys2Proof
end

