-- ==== Sys2Proof/Laws/State.lean ====
section
/-! SUPPORT. What each update of the state does to each field, one lemma per field and update. -/

namespace Sys2Proof.Machine

variable (s : State)

/-! ### withInput: taking moves off the port -/

@[simp] theorem State.withInput_buf (input : List HostEvent) : (s.withInput input).buf = s.buf := rfl
@[simp] theorem State.withInput_len (input : List HostEvent) : (s.withInput input).len = s.len := rfl
@[simp] theorem State.withInput_hdr (input : List HostEvent) : (s.withInput input).hdr = s.hdr := rfl
@[simp] theorem State.withInput_seg (input : List HostEvent) : (s.withInput input).seg = s.seg := rfl
@[simp] theorem State.withInput_nseg (input : List HostEvent) : (s.withInput input).nseg = s.nseg := rfl
@[simp] theorem State.withInput_parsed (input : List HostEvent) : (s.withInput input).parsed = s.parsed := rfl
@[simp] theorem State.withInput_acc (input : List HostEvent) : (s.withInput input).acc = s.acc := rfl
@[simp] theorem State.withInput_input (input : List HostEvent) : (s.withInput input).input = input := rfl
@[simp] theorem State.withInput_response (input : List HostEvent) : (s.withInput input).response = s.response := rfl

/-! ### answer: giving a response -/

@[simp] theorem State.answer_buf (result : Word) (out : List Byte) : (s.answer result out).buf = s.buf := rfl
@[simp] theorem State.answer_len (result : Word) (out : List Byte) : (s.answer result out).len = s.len := rfl
@[simp] theorem State.answer_hdr (result : Word) (out : List Byte) : (s.answer result out).hdr = s.hdr := rfl
@[simp] theorem State.answer_seg (result : Word) (out : List Byte) : (s.answer result out).seg = s.seg := rfl
@[simp] theorem State.answer_nseg (result : Word) (out : List Byte) : (s.answer result out).nseg = s.nseg := rfl
@[simp] theorem State.answer_parsed (result : Word) (out : List Byte) : (s.answer result out).parsed = s.parsed := rfl
@[simp] theorem State.answer_acc (result : Word) (out : List Byte) : (s.answer result out).acc = s.acc := rfl
@[simp] theorem State.answer_input (result : Word) (out : List Byte) : (s.answer result out).input = s.input := rfl
@[simp] theorem State.answer_response (result : Word) (out : List Byte) : (s.answer result out).response = some ⟨.ok, result, out⟩ := rfl

/-! ### raise: raising an error -/

@[simp] theorem State.raise_buf (e : Status) : (s.raise e).buf = s.buf := rfl
@[simp] theorem State.raise_len (e : Status) : (s.raise e).len = s.len := rfl
@[simp] theorem State.raise_hdr (e : Status) : (s.raise e).hdr = s.hdr := rfl
@[simp] theorem State.raise_seg (e : Status) : (s.raise e).seg = s.seg := rfl
@[simp] theorem State.raise_nseg (e : Status) : (s.raise e).nseg = s.nseg := rfl
@[simp] theorem State.raise_parsed (e : Status) : (s.raise e).parsed = s.parsed := rfl
@[simp] theorem State.raise_acc (e : Status) : (s.raise e).acc = s.acc := rfl
@[simp] theorem State.raise_input (e : Status) : (s.raise e).input = s.input := rfl
@[simp] theorem State.raise_response (e : Status) : (s.raise e).response = some ⟨e, 0, []⟩ := rfl

/-! ### setAcc: writing ACC -/

@[simp] theorem State.setAcc_buf (acc : Word) : (s.setAcc acc).buf = s.buf := rfl
@[simp] theorem State.setAcc_len (acc : Word) : (s.setAcc acc).len = s.len := rfl
@[simp] theorem State.setAcc_hdr (acc : Word) : (s.setAcc acc).hdr = s.hdr := rfl
@[simp] theorem State.setAcc_seg (acc : Word) : (s.setAcc acc).seg = s.seg := rfl
@[simp] theorem State.setAcc_nseg (acc : Word) : (s.setAcc acc).nseg = s.nseg := rfl
@[simp] theorem State.setAcc_parsed (acc : Word) : (s.setAcc acc).parsed = s.parsed := rfl
@[simp] theorem State.setAcc_acc (acc : Word) : (s.setAcc acc).acc = acc := rfl
@[simp] theorem State.setAcc_input (acc : Word) : (s.setAcc acc).input = s.input := rfl
@[simp] theorem State.setAcc_response (acc : Word) : (s.setAcc acc).response = s.response := rfl

/-! ### setTci: writing one TCI -/

@[simp] theorem State.setTci_buf (sel : Sel) (tci : Half) : (s.setTci sel tci).buf = s.buf := rfl
@[simp] theorem State.setTci_len (sel : Sel) (tci : Half) : (s.setTci sel tci).len = s.len := rfl
@[simp] theorem State.setTci_hdr (sel : Sel) (tci : Half) : (s.setTci sel tci).hdr = s.hdr := rfl
@[simp] theorem State.setTci_seg (sel : Sel) (tci : Half) : (s.setTci sel tci).seg = s.seg.set sel.toNat (.vlanTag tci) := rfl
@[simp] theorem State.setTci_nseg (sel : Sel) (tci : Half) : (s.setTci sel tci).nseg = s.nseg := rfl
@[simp] theorem State.setTci_parsed (sel : Sel) (tci : Half) : (s.setTci sel tci).parsed = s.parsed := rfl
@[simp] theorem State.setTci_acc (sel : Sel) (tci : Half) : (s.setTci sel tci).acc = s.acc := rfl
@[simp] theorem State.setTci_input (sel : Sel) (tci : Half) : (s.setTci sel tci).input = s.input := rfl
@[simp] theorem State.setTci_response (sel : Sel) (tci : Half) : (s.setTci sel tci).response = s.response := rfl

/-! ### copyFrame: LOAD's copy -/

@[simp] theorem State.copyFrame_buf (data : List Byte) : (s.copyFrame data).buf = Memory.fill data := rfl
@[simp] theorem State.copyFrame_len (data : List Byte) : (s.copyFrame data).len = BitVec.ofNat 11 data.length := rfl
@[simp] theorem State.copyFrame_hdr (data : List Byte) : (s.copyFrame data).hdr = s.hdr := rfl
@[simp] theorem State.copyFrame_seg (data : List Byte) : (s.copyFrame data).seg = [] := rfl
@[simp] theorem State.copyFrame_nseg (data : List Byte) : (s.copyFrame data).nseg = 0 := rfl
@[simp] theorem State.copyFrame_parsed (data : List Byte) : (s.copyFrame data).parsed = false := rfl
@[simp] theorem State.copyFrame_acc (data : List Byte) : (s.copyFrame data).acc = s.acc := rfl
@[simp] theorem State.copyFrame_input (data : List Byte) : (s.copyFrame data).input = s.input := rfl
@[simp] theorem State.copyFrame_response (data : List Byte) : (s.copyFrame data).response = s.response := rfl

/-! ### extractHeader: LOAD's header -/

@[simp] theorem State.extractHeader_buf : (s.extractHeader).buf = s.buf := rfl
@[simp] theorem State.extractHeader_len : (s.extractHeader).len = s.len := rfl
@[simp] theorem State.extractHeader_hdr : (s.extractHeader).hdr = Header.ofBuf s.buf := rfl
@[simp] theorem State.extractHeader_seg : (s.extractHeader).seg = s.seg := rfl
@[simp] theorem State.extractHeader_nseg : (s.extractHeader).nseg = s.nseg := rfl
@[simp] theorem State.extractHeader_parsed : (s.extractHeader).parsed = s.parsed := rfl
@[simp] theorem State.extractHeader_acc : (s.extractHeader).acc = s.acc := rfl
@[simp] theorem State.extractHeader_input : (s.extractHeader).input = s.input := rfl
@[simp] theorem State.extractHeader_response : (s.extractHeader).response = s.response := rfl

/-! ### setSegments: LOAD's segment table -/

@[simp] theorem State.setSegments_buf (segs : List Segment) : (s.setSegments segs).buf = s.buf := rfl
@[simp] theorem State.setSegments_len (segs : List Segment) : (s.setSegments segs).len = s.len := rfl
@[simp] theorem State.setSegments_hdr (segs : List Segment) : (s.setSegments segs).hdr = s.hdr := rfl
@[simp] theorem State.setSegments_seg (segs : List Segment) : (s.setSegments segs).seg = segs := rfl
@[simp] theorem State.setSegments_nseg (segs : List Segment) : (s.setSegments segs).nseg = BitVec.ofNat 9 segs.length := rfl
@[simp] theorem State.setSegments_parsed (segs : List Segment) : (s.setSegments segs).parsed = true := rfl
@[simp] theorem State.setSegments_acc (segs : List Segment) : (s.setSegments segs).acc = s.acc := rfl
@[simp] theorem State.setSegments_input (segs : List Segment) : (s.setSegments segs).input = s.input := rfl
@[simp] theorem State.setSegments_response (segs : List Segment) : (s.setSegments segs).response = s.response := rfl

end Sys2Proof.Machine
end

