-- ==== Sys2Proof/Laws/Operands.lean ====
section
/-! SUPPORT. The shared operations over operands, once each: what they answer when their checks pass or fail, and, the
other way round, everything they can have done when they answer a next state or a fault. -/

namespace Sys2Proof.Machine

variable {s t : State} {sel : Sel}

/-! ### The selector check (42_segment.md R160, 43_vlan.md R171) -/

theorem State.withSegment_badIndex {k : Segment → Host.Outcome State Fault Refusal}
    (h : s.nseg.toNat ≤ sel.toNat) : s.withSegment sel k = .next (s.raise .badIndex) := by
  simp [State.withSegment, h]

theorem State.withSegment_entry {k : Segment → Host.Outcome State Fault Refusal} {e : Segment}
    (h : sel.toNat < s.nseg.toNat) (he : s.seg[sel.toNat]? = some e) : s.withSegment sel k = k e := by
  simp [State.withSegment, Nat.not_le.mpr h, he]

theorem State.withGeneric_badIndex {k : Half → BitVec 11 → BitVec 11 → Host.Outcome State Fault Refusal}
    (h : s.nseg.toNat ≤ sel.toNat) : s.withGeneric sel k = .next (s.raise .badIndex) :=
  State.withSegment_badIndex h

theorem State.withGeneric_generic {k : Half → BitVec 11 → BitVec 11 → Host.Outcome State Fault Refusal}
    {ty : Half} {doff dlen : BitVec 11} (h : sel.toNat < s.nseg.toNat)
    (he : s.seg[sel.toNat]? = some (.generic ty doff dlen)) : s.withGeneric sel k = k ty doff dlen :=
  State.withSegment_entry h he

theorem State.withGeneric_tag {k : Half → BitVec 11 → BitVec 11 → Host.Outcome State Fault Refusal} {tci : Half}
    (h : sel.toNat < s.nseg.toNat) (he : s.seg[sel.toNat]? = some (.vlanTag tci)) :
    s.withGeneric sel k = .next (s.raise .wrongKind) :=
  State.withSegment_entry h he

theorem State.withTag_badIndex {k : Half → Host.Outcome State Fault Refusal}
    (h : s.nseg.toNat ≤ sel.toNat) : s.withTag sel k = .next (s.raise .badIndex) :=
  State.withSegment_badIndex h

theorem State.withTag_generic {k : Half → Host.Outcome State Fault Refusal} {ty : Half} {doff dlen : BitVec 11}
    (h : sel.toNat < s.nseg.toNat) (he : s.seg[sel.toNat]? = some (.generic ty doff dlen)) :
    s.withTag sel k = .next (s.raise .wrongKind) :=
  State.withSegment_entry h he

theorem State.withTag_tag {k : Half → Host.Outcome State Fault Refusal} {tci : Half}
    (h : sel.toNat < s.nseg.toNat) (he : s.seg[sel.toNat]? = some (.vlanTag tci)) : s.withTag sel k = k tci :=
  State.withSegment_entry h he

/-- Everything the selector check can do: `BadIndex`, an absent entry, or its continuation on the entry. -/
theorem State.withSegment_cases (s : State) (sel : Sel) (k : Segment → Host.Outcome State Fault Refusal) :
    (s.nseg.toNat ≤ sel.toNat ∧ s.withSegment sel k = .next (s.raise .badIndex)) ∨
    (sel.toNat < s.nseg.toNat ∧ s.seg[sel.toNat]? = none ∧ s.withSegment sel k = .fault .segmentAbsent) ∨
    (∃ e, sel.toNat < s.nseg.toNat ∧ s.seg[sel.toNat]? = some e ∧ s.withSegment sel k = k e) := by
  by_cases h : s.nseg.toNat ≤ sel.toNat
  · exact .inl ⟨h, State.withSegment_badIndex h⟩
  · have h' := Nat.not_le.mp h
    cases he : s.seg[sel.toNat]? with
    | none => exact .inr (.inl ⟨h', rfl, by simp [State.withSegment, h, he]⟩)
    | some e => exact .inr (.inr ⟨e, h', rfl, State.withSegment_entry h' he⟩)

/-- Everything the check for a Generic entry can do. -/
theorem State.withGeneric_cases (s : State) (sel : Sel)
    (k : Half → BitVec 11 → BitVec 11 → Host.Outcome State Fault Refusal) :
    (s.nseg.toNat ≤ sel.toNat ∧ s.withGeneric sel k = .next (s.raise .badIndex)) ∨
    (sel.toNat < s.nseg.toNat ∧ s.seg[sel.toNat]? = none ∧ s.withGeneric sel k = .fault .segmentAbsent) ∨
    (∃ tci, sel.toNat < s.nseg.toNat ∧ s.seg[sel.toNat]? = some (.vlanTag tci) ∧
      s.withGeneric sel k = .next (s.raise .wrongKind)) ∨
    (∃ ty doff dlen, sel.toNat < s.nseg.toNat ∧ s.seg[sel.toNat]? = some (.generic ty doff dlen) ∧
      s.withGeneric sel k = k ty doff dlen) := by
  rcases State.withSegment_cases s sel _ with h | h | ⟨e, h, he, hk⟩
  · exact .inl h
  · exact .inr (.inl h)
  · cases e with
    | generic ty doff dlen => exact .inr (.inr (.inr ⟨ty, doff, dlen, h, he, hk⟩))
    | vlanTag tci => exact .inr (.inr (.inl ⟨tci, h, he, hk⟩))

/-- Everything the check for a tag can do. -/
theorem State.withTag_cases (s : State) (sel : Sel) (k : Half → Host.Outcome State Fault Refusal) :
    (s.nseg.toNat ≤ sel.toNat ∧ s.withTag sel k = .next (s.raise .badIndex)) ∨
    (sel.toNat < s.nseg.toNat ∧ s.seg[sel.toNat]? = none ∧ s.withTag sel k = .fault .segmentAbsent) ∨
    (∃ ty doff dlen, sel.toNat < s.nseg.toNat ∧ s.seg[sel.toNat]? = some (.generic ty doff dlen) ∧
      s.withTag sel k = .next (s.raise .wrongKind)) ∨
    (∃ tci, sel.toNat < s.nseg.toNat ∧ s.seg[sel.toNat]? = some (.vlanTag tci) ∧ s.withTag sel k = k tci) := by
  rcases State.withSegment_cases s sel _ with h | h | ⟨e, h, he, hk⟩
  · exact .inl h
  · exact .inr (.inl h)
  · cases e with
    | generic ty doff dlen => exact .inr (.inr (.inl ⟨ty, doff, dlen, h, he, hk⟩))
    | vlanTag tci => exact .inr (.inr (.inr ⟨tci, h, he, hk⟩))

/-! ### Mutators (43_vlan.md R177 to R179) -/

/-- Everything a mutator can do: an absent entry, an error that changes nothing, or the write of one TCI. -/
theorem State.mutateTag_cases (s : State) (sel : Sel) (value : Half) (largest : Nat) (write : Half → Half → Half) :
    (sel.toNat < s.nseg.toNat ∧ s.seg[sel.toNat]? = none ∧
      s.mutateTag sel value largest write = .fault .segmentAbsent) ∨
    (∃ e, (e = .badIndex ∨ e = .wrongKind ∨ e = .invalidFieldValue) ∧
      s.mutateTag sel value largest write = .next (s.raise e)) ∨
    (∃ tci, sel.toNat < s.nseg.toNat ∧ s.seg[sel.toNat]? = some (.vlanTag tci) ∧ value.toNat ≤ largest ∧
      s.mutateTag sel value largest write = .next ((s.setTci sel (write tci value)).answer 0 [])) := by
  rcases State.withTag_cases s sel _ with h | h | ⟨_, _, _, h⟩ | ⟨tci, h, he, hk⟩
  · exact .inr (.inl ⟨_, .inl rfl, h.2⟩)
  · exact .inl h
  · exact .inr (.inl ⟨_, .inr (.inl rfl), h.2.2⟩)
  · by_cases hv : largest < value.toNat
    · exact .inr (.inl ⟨.invalidFieldValue, .inr (.inr rfl), by rw [State.mutateTag, hk, if_pos hv]⟩)
    · exact .inr (.inr ⟨tci, h, he, Nat.not_lt.mp hv, by rw [State.mutateTag, hk, if_neg hv]⟩)

/-! ### Reads of BUF (20_memory.md R50, R57) -/

theorem State.withBytes_inside {off n : Nat} {k : List Byte → Host.Outcome State Fault Refusal}
    (h : off + n ≤ Config.bufCap) : s.withBytes off n k = k (s.buf.slice off n) := if_pos h

/-- Everything a checked read can do. -/
theorem State.withBytes_cases (s : State) (off n : Nat) (k : List Byte → Host.Outcome State Fault Refusal) :
    (off + n ≤ Config.bufCap ∧ s.withBytes off n k = k (s.buf.slice off n)) ∨
    (Config.bufCap < off + n ∧ s.withBytes off n k = .fault .outsideBuffer) := by
  by_cases h : off + n ≤ Config.bufCap
  · exact .inl ⟨h, if_pos h⟩
  · exact .inr ⟨Nat.not_le.mp h, if_neg h⟩

theorem State.withChecksumField_short {k : Word → Host.Outcome State Fault Refusal} (h : s.len.toNat < 16) :
    s.withChecksumField k = .next (s.raise .frameTooShort) := if_pos h

theorem State.withChecksumField_read {k : Word → Host.Outcome State Fault Refusal} (h : 16 ≤ s.len.toNat)
    (hb : s.len.toNat ≤ 1518) : s.withChecksumField k = k (s.buf.read4 (s.len.toNat - 4)) := by
  have h1 : ¬ s.len.toNat < Config.minFcs := by simp only [Config.minFcs]; omega
  have h2 : s.len.toNat - Config.fcsLen + Config.fcsLen ≤ Config.bufCap := by
    simp only [Config.fcsLen, Config.bufCap]; omega
  rw [State.withChecksumField, if_neg h1, State.withBytes, if_pos h2]

/-- Everything the read of the checksum field can do. -/
theorem State.withChecksumField_cases (s : State) (k : Word → Host.Outcome State Fault Refusal) :
    (s.len.toNat < 16 ∧ s.withChecksumField k = .next (s.raise .frameTooShort)) ∨
    (16 ≤ s.len.toNat ∧ s.len.toNat ≤ 1518 ∧ s.withChecksumField k = k (s.buf.read4 (s.len.toNat - 4))) ∨
    (1518 < s.len.toNat ∧ s.withChecksumField k = .fault .outsideBuffer) := by
  by_cases h : s.len.toNat < 16
  · exact .inl ⟨h, State.withChecksumField_short h⟩
  · by_cases hb : s.len.toNat ≤ 1518
    · exact .inr (.inl ⟨by omega, hb, State.withChecksumField_read (by omega) hb⟩)
    · have h1 : ¬ s.len.toNat < Config.minFcs := h
      have h2 : ¬ s.len.toNat - Config.fcsLen + Config.fcsLen ≤ Config.bufCap := by
        simp only [Config.fcsLen, Config.bufCap]; omega
      exact .inr (.inr ⟨by omega, by rw [State.withChecksumField, if_neg h1, State.withBytes, if_neg h2]⟩)

end Sys2Proof.Machine
end

