-- ==== Sys2Proof/Laws/Memory.lean ====
section
/-! SUPPORT. BUF: what a fill leaves to read, that it is in canonical form, and the shape of a slice. -/

namespace Sys2Proof.Machine

@[simp] theorem Memory.byteAt_nil (a : Nat) : Memory.byteAt [] a = 0 := rfl

theorem Memory.byteAt_cons (k : Nat) (b : Byte) (rest : Memory) (a : Nat) :
    Memory.byteAt ((k, b) :: rest) a = if k = a then b else Memory.byteAt rest a := rfl

/-- Bytes laid down from offset `a` read back from `a` up; every other offset reads as unlisted. -/
theorem Memory.byteAt_place (data : List Byte) (a k : Nat) :
    Memory.byteAt (Memory.place a data) k = if a ≤ k then data.getD (k - a) 0 else 0 := by
  induction data generalizing a with
  | nil => simp [Memory.place]
  | cons b rest ih =>
    have tail : Memory.byteAt (Memory.place (a + 1) rest) k
        = if a + 1 ≤ k then rest.getD (k - (a + 1)) 0 else 0 := ih (a + 1)
    rcases Nat.lt_trichotomy k a with h | rfl | h
    · have h1 : ¬ a ≤ k := by omega
      have h2 : ¬ a + 1 ≤ k := by omega
      have h3 : a ≠ k := by omega
      by_cases hb : b = Memory.unlisted <;> simp [Memory.place, Memory.byteAt_cons, hb, tail, h1, h2, h3]
    · by_cases hb : b = Memory.unlisted <;> simp [Memory.place, Memory.byteAt_cons, hb, tail]
      rfl
    · obtain ⟨d, rfl⟩ := Nat.exists_eq_add_of_lt h
      have h3 : a ≠ a + d + 1 := by omega
      have e1 : a + d + 1 - a = d + 1 := by omega
      have e2 : a + d + 1 - (a + 1) = d := by omega
      have h1 : a ≤ a + d + 1 := by omega
      have h2 : a + 1 ≤ a + d + 1 := by omega
      rw [e2] at tail
      rw [if_pos h2] at tail
      rw [if_pos h1, e1]
      by_cases hb : b = Memory.unlisted <;> simp [Memory.place, Memory.byteAt_cons, hb, tail, h3]

/-- After a fill an offset reads the payload byte of that index, or zero above the payload (41_frame.md R132). -/
@[simp] theorem Memory.byteAt_fill (data : List Byte) (k : Nat) :
    (Memory.fill data).byteAt k = data.getD k 0 := by
  simp [Memory.fill, Memory.byteAt_place]

/-- Bytes laid down below the capacity are in canonical form. -/
theorem Memory.wfFrom_place (data : List Byte) (lo a : Nat) (hlo : lo ≤ a)
    (h : a + data.length ≤ Config.bufCap) : Memory.wfFrom lo (Memory.place a data) = true := by
  induction data generalizing lo a with
  | nil => rfl
  | cons b rest ih =>
    simp only [List.length_cons] at h
    by_cases hb : b = Memory.unlisted
    · simpa [Memory.place, hb] using ih lo (a + 1) (by omega) (by omega)
    · have ha : a < 1518 := by simp only [Config.bufCap] at h; omega
      simpa [Memory.place, hb, Memory.wfFrom, hlo, ha] using ih (a + 1) (a + 1) le_rfl (by omega)

/-- The one operation that writes BUF keeps the canonical form. -/
theorem Memory.wf_fill (data : List Byte) (h : data.length ≤ Config.bufCap) : (Memory.fill data).wf = true :=
  Memory.wfFrom_place data 0 0 le_rfl (by omega)

theorem Memory.wf_reset : State.reset.buf.wf = true := rfl

@[simp] theorem Memory.length_slice (m : Memory) (a n : Nat) : (m.slice a n).length = n := by
  induction n generalizing a with
  | zero => rfl
  | succ k ih => simp [Memory.slice, ih]

/-- A slice is the bytes at its offsets, one after the other (00_scope.md R9). -/
theorem Memory.slice_eq_map (m : Memory) (a n : Nat) :
    m.slice a n = (List.range n).map fun i => m.byteAt (a + i) := by
  induction n generalizing a with
  | zero => rfl
  | succ k ih =>
    rw [List.range_succ_eq_map]
    simp [Memory.slice, ih, Function.comp_def, Nat.add_assoc, Nat.add_comm 1]

/-- A slice from 0 of a filled buffer is the payload's front. -/
theorem Memory.slice_fill (data : List Byte) (n : Nat) (h : n ≤ data.length) :
    (Memory.fill data).slice 0 n = data.take n := by
  rw [Memory.slice_eq_map]
  apply List.ext_getElem
  · simp [h]
  · intro i h1 h2
    simp only [List.length_map, List.length_range] at h1
    have : i < data.length := by omega
    simp [this]

/-- A big-endian 16-bit read is its two bytes, the lower offset first (20_memory.md R52). -/
theorem Memory.read2_eq (m : Memory) (a : Nat) : m.read2 a = m.byteAt a ++ m.byteAt (a + 1) := rfl

/-- A big-endian 32-bit read is its four bytes, the lowest offset first (20_memory.md R53). -/
theorem Memory.read4_eq (m : Memory) (a : Nat) :
    m.read4 a = m.byteAt a ++ m.byteAt (a + 1) ++ m.byteAt (a + 2) ++ m.byteAt (a + 3) := rfl

end Sys2Proof.Machine
end

