-- ==== Sys2Proof/Laws/Parse.lean ====
section
/-! SUPPORT. The segment loop of LOAD (41_frame.md R134): what each pass does, that the segments it adds stand behind
the ones it was given, and what each segment it builds says about the buffer. -/

namespace Sys2Proof.Machine

variable {m : Memory} {off : Nat} {segs : List Segment}

@[simp] theorem parseLoop_zero : parseLoop m 0 off segs = some segs := by simp [parseLoop]

@[simp] theorem parseLoop_one : parseLoop m 1 off segs = none := by simp [parseLoop]

/-- A type field other than the TPID takes everything that remains (41_frame.md R134 (c)). -/
theorem parseLoop_generic {rest : Nat} (h : m.read2 off ≠ Config.tpidVlan) :
    parseLoop m (rest + 2) off segs =
      some (segs ++ [.generic (m.read2 off) (BitVec.ofNat 11 (off + 2)) (BitVec.ofNat 11 rest)]) := by
  rw [parseLoop.eq_def]; simp [h]

/-- A tag takes four bytes and the loop goes on (41_frame.md R134 (b)). -/
theorem parseLoop_tag {rest : Nat} (h : m.read2 off = Config.tpidVlan) :
    parseLoop m (rest + 4) off segs = parseLoop m rest (off + 4) (segs ++ [.vlanTag (m.read2 (off + 2))]) := by
  rw [parseLoop.eq_def]; simp [h]

/-- A TPID with fewer than four bytes left fails (41_frame.md R134 (b)). -/
theorem parseLoop_cut {rest : Nat} (h : m.read2 off = Config.tpidVlan) (hr : rest < 2) :
    parseLoop m (rest + 2) off segs = none := by
  rw [parseLoop.eq_def]
  obtain rfl | rfl : rest = 0 ∨ rest = 1 := by omega
  all_goals simp [h]

/-- The loop's induction: none left, one byte left, a Generic, a cut tag, a tag and the rest. -/
theorem parse_induction {motive : Nat → Nat → Prop} (m : Memory)
    (zero : ∀ off, motive 0 off) (one : ∀ off, motive 1 off)
    (generic : ∀ rest off, m.read2 off ≠ Config.tpidVlan → motive (rest + 2) off)
    (cut : ∀ rest off, m.read2 off = Config.tpidVlan → rest < 2 → motive (rest + 2) off)
    (tag : ∀ rest off, m.read2 off = Config.tpidVlan → motive rest (off + 4) → motive (rest + 4) off)
    (rem off : Nat) : motive rem off := by
  induction rem using Nat.strong_induction_on generalizing off with
  | _ rem ih =>
    match rem with
    | 0 => exact zero off
    | 1 => exact one off
    | rest + 2 =>
      by_cases h : m.read2 off = Config.tpidVlan
      · match rest with
        | 0 => exact cut 0 off h (by omega)
        | 1 => exact cut 1 off h (by omega)
        | rest' + 2 => exact tag rest' off h (ih rest' (by omega) (off + 4))
      · exact generic rest off h

/-- What the loop adds does not depend on what it was given. -/
theorem parseLoop_append (m : Memory) (rem off : Nat) :
    ∀ segs, parseLoop m rem off segs = (parseLoop m rem off []).map (segs ++ ·) := by
  refine parse_induction (motive := fun rem off => ∀ segs, parseLoop m rem off segs
      = (parseLoop m rem off []).map (segs ++ ·)) m ?_ ?_ ?_ ?_ ?_ rem off
  · simp
  · simp
  · intro rest off h segs; simp [parseLoop_generic h]
  · intro rest off h hr segs; simp [parseLoop_cut h hr]
  · intro rest off h ih segs
    rw [parseLoop_tag h, parseLoop_tag h, ih, ih ([] ++ _)]
    simp [Function.comp_def]

/-- What entry `j` built by a parse of `rem` bytes from `off` says about the buffer (41_frame.md R134). -/
def ParsedEntry (m : Memory) (rem off count j : Nat) : Segment → Prop
  | .vlanTag tci =>
    4 * j + 4 ≤ rem ∧ m.read2 (off + 4 * j) = Config.tpidVlan ∧ tci = m.read2 (off + 4 * j + 2)
  | .generic ty doff dlen =>
    j + 1 = count ∧ doff = BitVec.ofNat 11 (off + 4 * j + 2) ∧
      (∃ n, dlen = BitVec.ofNat 11 n ∧ 4 * j + 2 + n = rem) ∧
      ty = m.read2 (off + 4 * j) ∧ ty ≠ Config.tpidVlan

/-- Every entry a parse builds is read off the buffer at its place, and the entries fit into the bytes parsed. -/
theorem parseLoop_entries (m : Memory) (rem off : Nat) :
    ∀ segs, parseLoop m rem off [] = some segs →
      4 * segs.length ≤ rem + 2 ∧ (0 < segs.length → 2 ≤ rem) ∧
      ∀ (j : Nat) (e : Segment), segs[j]? = some e → ParsedEntry m rem off segs.length j e := by
  refine parse_induction (motive := fun rem off => ∀ segs, parseLoop m rem off [] = some segs →
      4 * segs.length ≤ rem + 2 ∧ (0 < segs.length → 2 ≤ rem) ∧
      ∀ (j : Nat) (e : Segment), segs[j]? = some e → ParsedEntry m rem off segs.length j e) m ?_ ?_ ?_ ?_ ?_ rem off
  · rintro off segs h
    obtain rfl : [] = segs := by simpa using h
    simp
  · intro off segs h; simp at h
  · intro rest off h segs hs
    rw [parseLoop_generic h] at hs
    obtain rfl := Option.some.inj hs
    refine ⟨by simp, by simp, ?_⟩
    intro j e he
    rcases j with _ | j
    · obtain rfl : _ = e := by simpa using he
      exact ⟨by simp, rfl, ⟨rest, rfl, by omega⟩, rfl, h⟩
    · simp at he
  · intro rest off h hr segs hs; simp [parseLoop_cut h hr] at hs
  · intro rest off h ih segs hs
    rw [parseLoop_tag h, parseLoop_append] at hs
    obtain ⟨more, hm, rfl⟩ := Option.map_eq_some_iff.mp hs
    obtain ⟨hlen, -, hent⟩ := ih more hm
    refine ⟨by simp only [List.length_append, List.length_cons, List.length_nil]; omega, by omega, ?_⟩
    intro j e he
    rcases j with _ | j
    · obtain rfl : _ = e := by simpa using he
      exact ⟨by omega, h, rfl⟩
    · have he' : more[j]? = some e := by simpa using he
      have := hent j e he'
      have o1 : off + 4 + 4 * j = off + 4 * (j + 1) := by omega
      cases e with
      | vlanTag tci =>
        obtain ⟨a, b, c⟩ := this
        rw [o1] at b c
        exact ⟨by omega, b, c⟩
      | generic ty doff dlen =>
        obtain ⟨a, b, ⟨n, hn, hn'⟩, c, d⟩ := this
        rw [o1] at b c
        exact ⟨by simp; omega, b, ⟨n, hn, by omega⟩, c, d⟩

/-! ### The parse inside LOAD -/

/-- LOAD's length register after the copy is the payload's length (41_frame.md R132). -/
theorem len_ofNat {n : Nat} (h : n ≤ Config.bufCap) : (BitVec.ofNat 11 n).toNat = n := by
  simp only [Config.bufCap] at h
  simp only [BitVec.toNat_ofNat]
  omega

variable (s : State)

theorem State.parseSegments_some {segs : List Segment} (h : parseFrame s.buf s.len.toNat = some segs) :
    s.parseSegments = (s.setSegments segs).answer 0 [] := by
  unfold State.parseSegments
  rw [h]

theorem State.parseSegments_none (h : parseFrame s.buf s.len.toNat = none) :
    s.parseSegments = s.raise .truncatedSegment := by
  unfold State.parseSegments
  rw [h]

/-- Everything the parse of a loaded frame can do: a table and PARSED, or the error on the state as it stands
(41_frame.md R135, R136). -/
theorem State.parseSegments_cases :
    (∃ segs, parseFrame s.buf s.len.toNat = some segs ∧ s.parseSegments = (s.setSegments segs).answer 0 []) ∨
    (parseFrame s.buf s.len.toNat = none ∧ s.parseSegments = s.raise .truncatedSegment) := by
  rcases h : parseFrame s.buf s.len.toNat with _ | segs
  · exact Or.inr ⟨rfl, s.parseSegments_none h⟩
  · exact Or.inl ⟨segs, rfl, s.parseSegments_some h⟩

@[simp] theorem State.parseSegments_buf : s.parseSegments.buf = s.buf := by
  rcases s.parseSegments_cases with ⟨_, _, h⟩ | ⟨_, h⟩ <;> simp [h]
@[simp] theorem State.parseSegments_len : s.parseSegments.len = s.len := by
  rcases s.parseSegments_cases with ⟨_, _, h⟩ | ⟨_, h⟩ <;> simp [h]
@[simp] theorem State.parseSegments_hdr : s.parseSegments.hdr = s.hdr := by
  rcases s.parseSegments_cases with ⟨_, _, h⟩ | ⟨_, h⟩ <;> simp [h]
@[simp] theorem State.parseSegments_acc : s.parseSegments.acc = s.acc := by
  rcases s.parseSegments_cases with ⟨_, _, h⟩ | ⟨_, h⟩ <;> simp [h]
@[simp] theorem State.parseSegments_input : s.parseSegments.input = s.input := by
  rcases s.parseSegments_cases with ⟨_, _, h⟩ | ⟨_, h⟩ <;> simp [h]

theorem execLoad_large {data : List Byte} (h : 1518 < data.length) :
    execLoad data s = .next (s.raise .frameTooLarge) := by
  have large : Config.bufCap < data.length := h
  rw [execLoad, if_pos large]

theorem execLoad_fits {data : List Byte} (h : data.length ≤ 1518) :
    execLoad data s = .next (s.copyFrame data).extractHeader.parseSegments := by
  have fits : ¬ Config.bufCap < data.length := Nat.not_lt.mpr h
  rw [execLoad, if_neg fits]

end Sys2Proof.Machine
end

