-- ==== Sys2Proof/Laws/Exec.lean ====
section
/-! SUPPORT. Everything a command, and a step, can do when it answers a next state, said once. -/

namespace Sys2Proof.Machine

/-- The ways a command can leave a state: an answer that writes nothing, an error that writes nothing, a new
accumulator, a new TCI in one tag, a new frame. -/
inductive Leaves (i : Instr) (s : State) : State → Prop where
  | answers (result : Word) (out : List Byte) (ro : readOnly i = true) (bound : out.length ≤ 1518) :
    Leaves i s (s.answer result out)
  | raises (e : Status) (err : e ≠ .ok) (mem : e ∈ raisable i) : Leaves i s (s.raise e)
  | accumulates (acc : Word) (which : i = .crcinit ∨ ∃ data, i = .crcupd data) :
    Leaves i s ((s.setAcc acc).answer 0 [])
  | rewrites (sel : Sel) (old new : Half) (which : mutates i = some sel) (inside : sel.toNat < s.nseg.toNat)
    (entry : s.seg[sel.toNat]? = some (.vlanTag old)) : Leaves i s ((s.setTci sel new).answer 0 [])
  | loads (data : List Byte) (which : i = .load data) (fits : data.length ≤ 1518) :
    Leaves i s (s.copyFrame data).extractHeader.parseSegments

section
variable {s t : State}

theorem leaves_checksumField {i : Instr} {k : Word → Host.Outcome State Fault Refusal}
    (mem : .frameTooShort ∈ raisable i) (hk : ∀ w, k w = .next t → Leaves i s t)
    (h : s.withChecksumField k = .next t) : Leaves i s t := by
  rcases s.withChecksumField_cases k with ⟨_, e⟩ | ⟨_, _, e⟩ | ⟨_, e⟩ <;> rw [e] at h
  · obtain rfl := Host.Outcome.next.inj h
    exact .raises _ (by decide) mem
  · exact hk _ h
  · cases h

theorem leaves_segment {i : Instr} {sel : Sel} {k : Segment → Host.Outcome State Fault Refusal}
    (mem : .badIndex ∈ raisable i) (hk : ∀ e, k e = .next t → Leaves i s t)
    (h : s.withSegment sel k = .next t) : Leaves i s t := by
  rcases s.withSegment_cases sel k with ⟨_, e⟩ | ⟨_, _, e⟩ | ⟨_, _, _, e⟩ <;> rw [e] at h
  · obtain rfl := Host.Outcome.next.inj h
    exact .raises _ (by decide) mem
  · cases h
  · exact hk _ h

theorem leaves_generic {i : Instr} {sel : Sel} {k : Half → BitVec 11 → BitVec 11 → Host.Outcome State Fault Refusal}
    (mem : .badIndex ∈ raisable i) (mem' : .wrongKind ∈ raisable i)
    (hk : ∀ ty doff dlen, k ty doff dlen = .next t → Leaves i s t)
    (h : s.withGeneric sel k = .next t) : Leaves i s t := by
  rcases s.withGeneric_cases sel k with ⟨_, e⟩ | ⟨_, _, e⟩ | ⟨_, _, _, e⟩ | ⟨_, _, _, _, _, e⟩ <;> rw [e] at h
  · obtain rfl := Host.Outcome.next.inj h
    exact .raises _ (by decide) mem
  · cases h
  · obtain rfl := Host.Outcome.next.inj h
    exact .raises _ (by decide) mem'
  · exact hk _ _ _ h

theorem leaves_tag {i : Instr} {sel : Sel} {k : Half → Host.Outcome State Fault Refusal}
    (mem : .badIndex ∈ raisable i) (mem' : .wrongKind ∈ raisable i) (hk : ∀ tci, k tci = .next t → Leaves i s t)
    (h : s.withTag sel k = .next t) : Leaves i s t := by
  rcases s.withTag_cases sel k with ⟨_, e⟩ | ⟨_, _, e⟩ | ⟨_, _, _, _, _, e⟩ | ⟨_, _, _, e⟩ <;> rw [e] at h
  · obtain rfl := Host.Outcome.next.inj h
    exact .raises _ (by decide) mem
  · cases h
  · obtain rfl := Host.Outcome.next.inj h
    exact .raises _ (by decide) mem'
  · exact hk _ h

theorem leaves_mutate {i : Instr} {sel : Sel} {value : Half} {largest : Nat} {write : Half → Half → Half}
    (which : mutates i = some sel) (mem : ∀ e ∈ [Status.badIndex, .wrongKind, .invalidFieldValue], e ∈ raisable i)
    (h : s.mutateTag sel value largest write = .next t) : Leaves i s t := by
  rcases s.mutateTag_cases sel value largest write with ⟨_, _, e⟩ | ⟨err, he, e⟩ | ⟨tci, h1, h2, _, e⟩ <;> rw [e] at h
  · cases h
  · obtain rfl := Host.Outcome.next.inj h
    refine .raises _ ?_ (mem _ ?_) <;> rcases he with rfl | rfl | rfl <;> simp
  · obtain rfl := Host.Outcome.next.inj h
    exact .rewrites _ _ _ which h1 h2

theorem leaves_answer {i : Instr} {result : Word} {out : List Byte} (ro : readOnly i = true)
    (bound : out.length ≤ 1518) (h : Host.Outcome.next (s.answer result out) = (.next t : Host.Outcome State Fault Refusal)) :
    Leaves i s t := by
  obtain rfl := Host.Outcome.next.inj h
  exact .answers _ _ ro bound

theorem leaves_bytes {i : Instr} {off n : Nat} {result : Word} (ro : readOnly i = true)
    (h : s.withBytes off n (fun bytes => .next (s.answer result bytes)) = .next t) : Leaves i s t := by
  rcases s.withBytes_cases off n (fun bytes => .next (s.answer result bytes)) with ⟨hb, e⟩ | ⟨_, e⟩ <;> rw [e] at h
  · exact leaves_answer ro (by simp only [Memory.length_slice, Config.bufCap] at *; omega) h
  · cases h

/-- Everything a command can do when it answers a next state. -/
theorem exec_leaves {i : Instr} (h : exec i s = .next t) : Leaves i s t := by
  cases i with
  | crc32 data => exact leaves_answer rfl (by simp) h
  | crcinit => obtain rfl := Host.Outcome.next.inj h; exact .accumulates _ (.inl rfl)
  | crcupd data => obtain rfl := Host.Outcome.next.inj h; exact .accumulates _ (.inr ⟨data, rfl⟩)
  | crcfin => exact leaves_answer rfl (by simp) h
  | load data =>
    by_cases hl : data.length ≤ 1518
    · obtain rfl := Host.Outcome.next.inj ((execLoad_fits s hl).symm.trans h)
      exact .loads data rfl hl
    · obtain rfl := Host.Outcome.next.inj ((execLoad_large s (Nat.not_le.mp hl)).symm.trans h)
      exact .raises _ (by decide) (by simp [raisable])
  | validate => exact leaves_checksumField (by simp [raisable]) (fun _ => leaves_answer rfl (by simp)) h
  | fcs => exact leaves_checksumField (by simp [raisable]) (fun _ => leaves_answer rfl (by simp)) h
  | fstat => exact leaves_answer rfl (by simp) h
  | getdst => exact leaves_answer rfl (by simp [MacAddr.bytes]) h
  | getsrc => exact leaves_answer rfl (by simp [MacAddr.bytes]) h
  | getbuf => exact leaves_bytes rfl h
  | segkind sel => exact leaves_segment (by simp [raisable]) (fun _ => leaves_answer rfl (by simp)) h
  | getype sel =>
    exact leaves_generic (by simp [raisable]) (by simp [raisable]) (fun _ _ _ => leaves_answer rfl (by simp)) h
  | gdata sel =>
    exact leaves_generic (by simp [raisable]) (by simp [raisable]) (fun _ _ _ => leaves_bytes rfl) h
  | tpid sel => exact leaves_tag (by simp [raisable]) (by simp [raisable]) (fun _ => leaves_answer rfl (by simp)) h
  | tci sel => exact leaves_tag (by simp [raisable]) (by simp [raisable]) (fun _ => leaves_answer rfl (by simp)) h
  | pcp sel => exact leaves_tag (by simp [raisable]) (by simp [raisable]) (fun _ => leaves_answer rfl (by simp)) h
  | dei sel => exact leaves_tag (by simp [raisable]) (by simp [raisable]) (fun _ => leaves_answer rfl (by simp)) h
  | vid sel => exact leaves_tag (by simp [raisable]) (by simp [raisable]) (fun _ => leaves_answer rfl (by simp)) h
  | setpcp sel value => exact leaves_mutate rfl (by simp [raisable]) h
  | setdei sel value => exact leaves_mutate rfl (by simp [raisable]) h
  | setvid sel value => exact leaves_mutate rfl (by simp [raisable]) h

end

/-- Everything a step can do when it answers a next state: a command, an illegal word, a reset, or nothing. -/
theorem step_cases {s t : State} (h : step s = .next t) :
    (∃ i rest, fetch s.input = .command i rest ∧ exec i (s.withInput rest) = .next t) ∨
    (∃ why rest, fetch s.input = .illegal why rest ∧ t = (s.withInput rest).raise .illegalCommand) ∨
    (∃ rest, fetch s.input = .reset rest ∧ t = State.assertReset rest) ∨
    (fetch s.input = .none ∧ t = s) := by
  unfold step at h
  cases hf : fetch s.input with
  | command i rest => exact .inl ⟨i, rest, rfl, by simpa [hf] using h⟩
  | illegal why rest => exact .inr (.inl ⟨why, rest, rfl, by simpa [hf] using h.symm⟩)
  | reset rest => exact .inr (.inr (.inl ⟨rest, rfl, by simpa [hf] using h.symm⟩))
  | none => exact .inr (.inr (.inr ⟨rfl, by simpa [hf] using h.symm⟩))

end Sys2Proof.Machine
end

