-- ==== Sys2Proof/Laws/PerInstr.lean ====
section
/-! SUPPORT. Statements for all instructions, one lemma per constructor. PayloadLength: the payload of a well-formed
command is exactly as long as its word announces, the check of 30_encoding.md R83. -/

namespace Sys2Proof.Laws.PayloadLength

/-- A well-formed command carries `plen` payload bytes (30_encoding.md R83). -/
def Statement (i : Instr) : Prop := i.wf = true → i.payload.length = plen (encodeWord i)

theorem length_fits {n : Nat} (h : n ≤ Config.payloadMax) : (BitVec.ofNat 16 n).toNat = n := by
  simp only [Config.payloadMax] at h
  simp only [BitVec.toNat_ofNat]
  omega

theorem crc32 (data : List Byte) : Statement (.crc32 data) := fun h => by
  simp [Instr.payload, plen, encodeWord, length_fits (of_decide_eq_true h)]
theorem crcinit : Statement .crcinit := fun _ => by simp [Instr.payload, plen, encodeWord]
theorem crcupd (data : List Byte) : Statement (.crcupd data) := fun h => by
  simp [Instr.payload, plen, encodeWord, length_fits (of_decide_eq_true h)]
theorem crcfin : Statement .crcfin := fun _ => by simp [Instr.payload, plen, encodeWord]
theorem load (data : List Byte) : Statement (.load data) := fun h => by
  simp [Instr.payload, plen, encodeWord, length_fits (of_decide_eq_true h)]
theorem validate : Statement .validate := fun _ => by simp [Instr.payload, plen, encodeWord]
theorem fcs : Statement .fcs := fun _ => by simp [Instr.payload, plen, encodeWord]
theorem fstat : Statement .fstat := fun _ => by simp [Instr.payload, plen, encodeWord]
theorem getdst : Statement .getdst := fun _ => by simp [Instr.payload, plen, encodeWord]
theorem getsrc : Statement .getsrc := fun _ => by simp [Instr.payload, plen, encodeWord]
theorem getbuf : Statement .getbuf := fun _ => by simp [Instr.payload, plen, encodeWord]
theorem segkind (sel : Sel) : Statement (.segkind sel) := fun _ => by simp [Instr.payload, plen, encodeWord]
theorem getype (sel : Sel) : Statement (.getype sel) := fun _ => by simp [Instr.payload, plen, encodeWord]
theorem gdata (sel : Sel) : Statement (.gdata sel) := fun _ => by simp [Instr.payload, plen, encodeWord]
theorem tpid (sel : Sel) : Statement (.tpid sel) := fun _ => by simp [Instr.payload, plen, encodeWord]
theorem tci (sel : Sel) : Statement (.tci sel) := fun _ => by simp [Instr.payload, plen, encodeWord]
theorem pcp (sel : Sel) : Statement (.pcp sel) := fun _ => by simp [Instr.payload, plen, encodeWord]
theorem dei (sel : Sel) : Statement (.dei sel) := fun _ => by simp [Instr.payload, plen, encodeWord]
theorem vid (sel : Sel) : Statement (.vid sel) := fun _ => by simp [Instr.payload, plen, encodeWord]
theorem setpcp (sel : Sel) (value : Half) : Statement (.setpcp sel value) := fun _ => by
  simp [Instr.payload, plen, encodeWord]
theorem setdei (sel : Sel) (value : Half) : Statement (.setdei sel value) := fun _ => by
  simp [Instr.payload, plen, encodeWord]
theorem setvid (sel : Sel) (value : Half) : Statement (.setvid sel value) := fun _ => by
  simp [Instr.payload, plen, encodeWord]

end Sys2Proof.Laws.PayloadLength
end

