-- ==== Sys2Proof/Tests/Slice0.lean ====
section
/-! SUPPORT. Tests on single commands and words, with results from spec/95_test_vectors.md or worked by hand from the
rules named, and a witness for the hypotheses of every statement that has some. -/

namespace Sys2Proof.Tests

open Sys2Proof.Machine

-- Each test below waits for the kernel; elaborated side by side they would hold a thread each.
set_option Elab.async false

/-! ### Helpers -/

/-- The response a command left, if it answered. -/
def responseOf (o : Host.Outcome State Fault Refusal) : Option Response :=
  match o with
  | .next s => s.response
  | .fault _ => none
  | .refused _ => none

/-- The state a command left, if it answered; else the reset state. -/
def stateOf (o : Host.Outcome State Fault Refusal) : State :=
  match o with
  | .next s => s
  | .fault _ => State.reset
  | .refused _ => State.reset

/-- The header bytes H of 95_test_vectors.md. -/
def headerH : List Byte := [0x01, 0x02, 0x03, 0x04, 0x05, 0x06, 0x0A, 0x0B, 0x0C, 0x0D, 0x0E, 0x0F]

/-- The frame F1 of 95_test_vectors.md. -/
def frameF1 : List Byte := headerH ++ [0x81, 0x00, 0xB0, 0xC8, 0x19, 0x51, 0x20, 0x15]

/-- The frame F1le of 95_test_vectors.md. -/
def frameF1le : List Byte := headerH ++ [0x81, 0x00, 0xB0, 0xC8, 0x15, 0x20, 0x51, 0x19]

/-- The frame F3 of 95_test_vectors.md. -/
def frameF3 : List Byte :=
  headerH ++ [0x81, 0x00, 0x60, 0x64, 0x81, 0x00, 0x00, 0x00, 0x08, 0x00, 0xDE, 0xAD, 0xBE, 0xEF, 0xD4, 0xA1, 0x0B, 0x4B]

/-- The state after a load. -/
def loaded (frame : List Byte) : State := stateOf (exec (.load frame) State.reset)

/-- The response to a command on a loaded frame. -/
def askAfter (frame : List Byte) (i : Instr) : Option Response := responseOf (exec i (loaded frame))

/-- A payload of `n` zero bytes. -/
def zeros (n : Nat) : List Byte := List.replicate n 0

theorem length_zeros (n : Nat) : (zeros n).length = n := List.length_replicate

theorem length_zeros_le {n m : Nat} (h : n ≤ m) : (zeros n).length ≤ m := (length_zeros n).symm ▸ h

/-! ### Well-formedness: an ill-formed term for the one check -/

theorem test_wf_crc32_too_long : Instr.wf (.crc32 (zeros 65536)) = false := by
  simp only [Instr.wf, length_zeros]; decide
theorem test_wf_crcupd_too_long : Instr.wf (.crcupd (zeros 65536)) = false := by
  simp only [Instr.wf, length_zeros]; decide
theorem test_wf_load_too_long : Instr.wf (.load (zeros 65536)) = false := by
  simp only [Instr.wf, length_zeros]; decide
theorem test_wf_longest : Instr.wf (.load (zeros 65535)) = true := by
  simp only [Instr.wf, length_zeros]; decide

/-! ### Decoding: one word per row of 30_encoding.md R86, written out from its bits -/

/-- 000001 | 0000000000 | n = 1. -/
theorem test_decode_crc32 : decode [0x04, 0x00, 0x00, 0x01, 0xFF] = .command (.crc32 [0xFF]) [] := by decide +kernel
/-- 000010 | 0 | 0. -/
theorem test_decode_crcinit : decode [0x08, 0x00, 0x00, 0x00] = .command (.crcinit) [] := by decide +kernel
/-- 000011 | 0 | n = 2. -/
theorem test_decode_crcupd : decode [0x0C, 0x00, 0x00, 0x02, 0x31, 0x32] = .command (.crcupd [0x31, 0x32]) [] := by decide +kernel
/-- 000100 | 0 | 0. -/
theorem test_decode_crcfin : decode [0x10, 0x00, 0x00, 0x00] = .command (.crcfin) [] := by decide +kernel
/-- 001000 | 0 | n = 3, T29. -/
theorem test_decode_load : decode [0x20, 0x00, 0x00, 0x03, 0x01, 0x02, 0x03] = .command (.load [0x01, 0x02, 0x03]) [] := by decide +kernel
/-- 001001 | 0 | 0. -/
theorem test_decode_validate : decode [0x24, 0x00, 0x00, 0x00] = .command (.validate) [] := by decide +kernel
/-- 001010 | 0 | 0. -/
theorem test_decode_fcs : decode [0x28, 0x00, 0x00, 0x00] = .command (.fcs) [] := by decide +kernel
/-- 001011 | 0 | 0. -/
theorem test_decode_fstat : decode [0x2C, 0x00, 0x00, 0x00] = .command (.fstat) [] := by decide +kernel
/-- 001100 | 0 | 0. -/
theorem test_decode_getdst : decode [0x30, 0x00, 0x00, 0x00] = .command (.getdst) [] := by decide +kernel
/-- 001101 | 0 | 0. -/
theorem test_decode_getsrc : decode [0x34, 0x00, 0x00, 0x00] = .command (.getsrc) [] := by decide +kernel
/-- 001110 | 0 | 0. -/
theorem test_decode_getbuf : decode [0x38, 0x00, 0x00, 0x00] = .command (.getbuf) [] := by decide +kernel
/-- 010000 | 1111111111 | 0, T34. -/
theorem test_decode_segkind : decode [0x43, 0xFF, 0x00, 0x00] = .command (.segkind 1023) [] := by decide +kernel
/-- 010001 | 0101110111 | 0, T34. -/
theorem test_decode_getype : decode [0x45, 0x77, 0x00, 0x00] = .command (.getype 375) [] := by decide +kernel
/-- 010010 | 0000000010 | 0, T22. -/
theorem test_decode_gdata : decode [0x48, 0x02, 0x00, 0x00] = .command (.gdata 2) [] := by decide +kernel
/-- 011000 | 0000000001 | 0, T22. -/
theorem test_decode_tpid : decode [0x60, 0x01, 0x00, 0x00] = .command (.tpid 1) [] := by decide +kernel
/-- 011001 | 0101110110 | 0, T34. -/
theorem test_decode_tci : decode [0x65, 0x76, 0x00, 0x00] = .command (.tci 374) [] := by decide +kernel
/-- 011010 | 0000000010 | 0, T22. -/
theorem test_decode_pcp : decode [0x68, 0x02, 0x00, 0x00] = .command (.pcp 2) [] := by decide +kernel
/-- 011011 | 0000000001 | 0, T22. -/
theorem test_decode_dei : decode [0x6C, 0x01, 0x00, 0x00] = .command (.dei 1) [] := by decide +kernel
/-- 011100 | 1000000000 | 0. -/
theorem test_decode_vid : decode [0x72, 0x00, 0x00, 0x00] = .command (.vid 512) [] := by decide +kernel
/-- 011101 | 1111111111 | 7, T61. -/
theorem test_decode_setpcp : decode [0x77, 0xFF, 0x00, 0x07] = .command (.setpcp 1023 7) [] := by decide +kernel
/-- 011110 | 0000000001 | 2, T22. -/
theorem test_decode_setdei : decode [0x78, 0x01, 0x00, 0x02] = .command (.setdei 1 2) [] := by decide +kernel
/-- 011111 | 0000000001 | 4096, T22. -/
theorem test_decode_setvid : decode [0x7C, 0x01, 0x10, 0x00] = .command (.setvid 1 4096) [] := by decide +kernel

/-- T60: an unassigned op, and the bytes behind it kept. -/
theorem test_decode_zero_word : decode [0x00, 0x00, 0x00, 0x00, 0x24] = .illegal .unassignedOp [0x24] := by
  decide +kernel
/-- T60: format P with `sel` not zero takes no payload. -/
theorem test_decode_load_sel : decode [0x20, 0x01, 0x00, 0x14, 0x01] = .illegal .reservedNotZero [0x01] := by
  decide +kernel
/-- T60: format S with `imm` not zero. -/
theorem test_decode_vid_imm : decode [0x70, 0x00, 0x08, 0x00] = .illegal .reservedNotZero [] := by decide +kernel
/-- R227: a payload byte short. -/
theorem test_decode_waits : decode [0x20, 0x00, 0x00, 0x02, 0x01] = .incomplete := by decide +kernel
/-- The table's LOAD word with two zero payload bytes. -/
theorem test_table_word : decodeTableWord 32 0x20000002 = some (.load [0, 0]) := by decide +kernel

/-! ### One command at a time -/

/-- T8. -/
theorem test_crc32_check : responseOf (exec (.crc32 [0x31, 0x32, 0x33, 0x34, 0x35, 0x36, 0x37, 0x38, 0x39]) State.reset) =
    some ⟨.ok, 0xCBF43926, []⟩ := by decide +kernel
/-- T2. -/
theorem test_crc32_byte : crc32 [0x00] = 0xD202EF8D := by decide +kernel
/-- R113. -/
theorem test_crcinit_acc : (stateOf (exec .crcinit ((State.reset).setAcc 0x641C1F5C))).acc = 0xFFFFFFFF := by decide +kernel
/-- T15. -/
theorem test_crcupd_acc : (stateOf (exec (.crcupd [0x31, 0x32, 0x33, 0x34]) State.reset)).acc = 0x641C1F5C := by decide +kernel
/-- T15. -/
theorem test_crcupd_goes_on : (stateOf (exec (.crcupd [0x35, 0x36, 0x37, 0x38, 0x39]) (State.reset.setAcc 0x641C1F5C))).acc = 0x340BC6D9 := by decide +kernel
/-- P1, step 4. -/
theorem test_crcfin_result : responseOf (exec .crcfin (State.reset.setAcc 0x641C1F5C)) = some ⟨.ok, 0x9BE3E0A3, []⟩ := by decide +kernel
/-- T22. -/
theorem test_load_f3 : (loaded frameF3).seg = [.vlanTag 0x6064, .vlanTag 0x0000, .generic 0x0800 22 4] := by decide +kernel
/-- T28a: the good tag is discarded too. -/
theorem test_load_truncated : (let s := loaded (headerH ++ [0x81, 0x00, 0x12, 0x34, 0x08, 0x00, 0x00, 0x00, 0x00])
    (s.response, s.len, s.nseg, s.parsed)) = (some ⟨.truncatedSegment, 0, []⟩, 21, 0, false) := by decide +kernel
/-- T20. -/
theorem test_validate_f1 : askAfter frameF1 .validate = some ⟨.ok, 1, []⟩ := by decide +kernel
/-- T36. -/
theorem test_validate_f1le : askAfter frameF1le .validate = some ⟨.ok, 0, []⟩ := by decide +kernel
/-- T20. -/
theorem test_fcs_f1 : askAfter frameF1 .fcs = some ⟨.ok, 0x19512015, []⟩ := by decide +kernel
/-- T29. -/
theorem test_fcs_short : askAfter [0x01, 0x02, 0x03] .fcs = some ⟨.frameTooShort, 0, []⟩ := by decide +kernel
/-- T22. -/
theorem test_fstat_f3 : askAfter frameF3 .fstat = some ⟨.ok, 0x8003001E, []⟩ := by decide +kernel
/-- T24. -/
theorem test_fstat_truncated : askAfter (headerH ++ [0x08, 0x00, 0x00, 0x00, 0x00]) .fstat = some ⟨.ok, 0x00000011, []⟩ := by decide +kernel
/-- T29. -/
theorem test_getdst_short : askAfter [0x01, 0x02, 0x03] .getdst = some ⟨.ok, 0, [0x01, 0x02, 0x03, 0x00, 0x00, 0x00]⟩ := by decide +kernel
/-- T20. -/
theorem test_getsrc_f1 : askAfter frameF1 .getsrc = some ⟨.ok, 0, [0x0A, 0x0B, 0x0C, 0x0D, 0x0E, 0x0F]⟩ := by decide +kernel
/-- T29. -/
theorem test_getbuf_short : askAfter [0x01, 0x02, 0x03] .getbuf = some ⟨.ok, 3, [0x01, 0x02, 0x03]⟩ := by decide +kernel
/-- T22. -/
theorem test_segkind_generic : askAfter frameF3 (.segkind 2) = some ⟨.ok, 0, []⟩ := by decide +kernel
/-- T22. -/
theorem test_segkind_beyond : askAfter frameF3 (.segkind 3) = some ⟨.badIndex, 0, []⟩ := by decide +kernel
/-- T22. -/
theorem test_getype_f3 : askAfter frameF3 (.getype 2) = some ⟨.ok, 0x00000800, []⟩ := by decide +kernel
/-- T31: bytes 00 81 are type 0x0081. -/
theorem test_getype_low_byte_first : askAfter (headerH ++ [0x00, 0x81, 0x12, 0x34, 0x00, 0x00, 0x00, 0x00]) (.getype 0) = some ⟨.ok, 0x00000081, []⟩ := by decide +kernel
/-- T22. -/
theorem test_gdata_f3 : askAfter frameF3 (.gdata 2) = some ⟨.ok, 4, [0xDE, 0xAD, 0xBE, 0xEF]⟩ := by decide +kernel
/-- T31: 81 00 inside data is data. -/
theorem test_gdata_opaque : askAfter (headerH ++ [0x08, 0x00, 0x81, 0x00, 0x00, 0x05, 0xD3, 0xFC, 0x24, 0xD1]) (.gdata 0) =
    some ⟨.ok, 4, [0x81, 0x00, 0x00, 0x05]⟩ := by decide +kernel
/-- T22. -/
theorem test_tpid_f3 : askAfter frameF3 (.tpid 1) = some ⟨.ok, 0x00008100, []⟩ := by decide +kernel
/-- T22. -/
theorem test_tpid_generic : askAfter frameF3 (.tpid 2) = some ⟨.wrongKind, 0, []⟩ := by decide +kernel
/-- T20. -/
theorem test_tci_f1 : askAfter frameF1 (.tci 0) = some ⟨.ok, 0x0000B0C8, []⟩ := by decide +kernel
/-- T20. -/
theorem test_pcp_f1 : askAfter frameF1 (.pcp 0) = some ⟨.ok, 5, []⟩ := by decide +kernel
/-- T20. -/
theorem test_dei_f1 : askAfter frameF1 (.dei 0) = some ⟨.ok, 1, []⟩ := by decide +kernel
/-- T20. -/
theorem test_vid_f1 : askAfter frameF1 (.vid 0) = some ⟨.ok, 200, []⟩ := by decide +kernel
/-- T51. -/
theorem test_setpcp_f1 : (stateOf (exec (.setpcp 0 3) (loaded frameF1))).seg = [.vlanTag 0x70C8] := by decide +kernel
/-- T52. -/
theorem test_setpcp_eight : (let s := stateOf (exec (.setpcp 0 8) (loaded frameF1))
    (s.response, s.seg)) = (some ⟨.invalidFieldValue, 0, []⟩, [.vlanTag 0xB0C8]) := by decide +kernel
/-- T51. -/
theorem test_setdei_f1 : (stateOf (exec (.setdei 0 0) (loaded frameF1))).seg = [.vlanTag 0xA0C8] := by decide +kernel
/-- T52. -/
theorem test_setdei_two : askAfter frameF1 (.setdei 0 2) = some ⟨.invalidFieldValue, 0, []⟩ := by decide +kernel
/-- T51. -/
theorem test_setvid_f1 : (stateOf (exec (.setvid 0 4095) (loaded frameF1))).seg = [.vlanTag 0xBFFF] := by decide +kernel
/-- T22: kind before value. -/
theorem test_setvid_kind_first : askAfter frameF3 (.setvid 2 4096) = some ⟨.wrongKind, 0, []⟩ := by decide +kernel

/-! ### The port and the text form -/

/-- T64: the bytes of SETVID 0, 4096 on F1, and of the response. -/
theorem test_serial_response :
    (askAfter frameF1 (.setvid 0 4096)).map Response.serial = some [0x04, 0, 0, 0, 0, 0, 0, 0] := by decide +kernel
/-- T64: GETDST's response carries its six bytes. -/
theorem test_serial_out : (askAfter frameF1 .getdst).map Response.serial =
    some [0, 0, 0, 6, 0, 0, 0, 0, 0x01, 0x02, 0x03, 0x04, 0x05, 0x06] := by decide +kernel
/-- T64: an illegal word off the port. -/
theorem test_step_illegal :
    (let s := stateOf (step (State.reset.withInput (([0xFF, 0xFF, 0xFF, 0xFF, 0x24] : List Byte).map .byte)))
     (s.response, s.input)) = (some ⟨.illegalCommand, 0, []⟩, [.byte 0x24]) := by decide +kernel
/-- R220: reset behind half a LOAD abandons it. -/
theorem test_step_reset :
    stateOf (step ((loaded frameF1).withInput [.byte 0x20, .byte 0x00, .reset, .byte 0x24])) =
      State.reset.withInput [.byte 0x24] := by decide +kernel
/-- The host's table word for CRCFIN runs as the first command after reset. -/
theorem test_step_table_word :
    responseOf (step (State.reset.withFetchWord 32 0x10000000)) = some ⟨.ok, 0x00000000, []⟩ := by decide +kernel
/-- R89: a format V line with a comment. -/
theorem test_assemble_setvid : assemble "SETVID 1, 4095  ; T22".toList = some [.setvid 1 4095] := by decide +kernel
/-- R89: a hex payload and a quoted one that holds the characters the line form uses. -/
theorem test_assemble_payload : assemble "LOAD 0aFF".toList = some [.load [0x0A, 0xFF]] ∧
    assemble "CRC32 \"1,;\"".toList = some [.crc32 [0x31, 0x2C, 0x3B]] := by decide +kernel
/-- R90: the expansion of CRCLONG. -/
theorem test_assemble_crclong : assemble "CRCLONG \"1\", []".toList =
    some [.crcinit, .crcupd [0x31], .crcupd [], .crcfin] := by decide +kernel
/-- R90: SETTCI stops at the first error and keeps what was written before it. -/
theorem test_settci_stops :
    (let s := stateOf (execUntilError (Pseudo.settci 0 3 2 100).expand (loaded frameF1))
     (s.response, s.seg)) = (some ⟨.invalidFieldValue, 0, []⟩, [.vlanTag 0x70C8]) := by decide +kernel
/-- 20_memory.md R52: the other wire order is the byte swap. -/
theorem test_wire_orders : halfOfBytes .big 0x81 0x00 = 0x8100 ∧ halfOfBytes .little 0x81 0x00 = 0x0081 := by
  decide +kernel

/-! ### Witnesses: states and operands that meet the hypotheses of each statement -/

/-- A frame of 20 bytes, all zero but for one tag's TPID: header, tag, checksum field. -/
def tagState : State :=
  { State.reset with
    buf := [(12, 0x81)]
    len := 20
    seg := [.vlanTag 0x0000]
    nseg := 1
    parsed := true }

/-- A frame of 18 zero bytes: one Generic entry without data. -/
def genericState : State :=
  { State.reset with
    len := 18
    seg := [.generic 0x0000 14 0]
    nseg := 1
    parsed := true }

/-- What a LOAD of 17 zero bytes leaves: a frame that did not parse. -/
def unparsedState : State := { State.reset with len := 17 }

theorem tagState_inv : tagState.Inv where
  canonical := by decide
  lenBound := by decide
  zeroBeyond := fun a h => by
    have h' : 12 ≠ a := by have : (20 : Nat) ≤ a := h; omega
    simp [tagState, Memory.byteAt_cons, h']
  header := by decide
  unparsedEmpty := by decide
  countBound := by decide
  tableLength := by decide
  entries := fun j e h => by
    rcases j with _ | j
    · obtain rfl : Segment.vlanTag 0x0000 = e := by simpa [tagState] using h
      exact ⟨by decide, by decide⟩
    · simp [tagState] at h
  someLength := by decide

theorem unparsedState_inv : unparsedState.Inv where
  canonical := by decide
  lenBound := by decide
  zeroBeyond := fun _ _ => rfl
  header := by decide
  unparsedEmpty := by decide
  countBound := by decide
  tableLength := by decide
  entries := fun j e h => by simp [unparsedState, State.reset] at h
  someLength := by decide

theorem witness_Crc32AnswersTheChecksum :
    (zeros 65535).length ≤ 65535 ∧
    (opField 0x04010000 = 0x01#6 ∧ selField 0x04010000 ≠ 0) := ⟨length_zeros_le (by decide), by decide, by decide⟩

theorem witness_CrcinitStartsTheStream :
    ∃ t u, exec .crcinit State.reset = .next t ∧ exec .crcinit t = .next u := ⟨_, _, rfl, rfl⟩

theorem witness_CrcupdFeedsTheStream :
    (zeros 65535).length ≤ 65535 ∧
    ∃ t u v, exec (.crcupd [0x31]) State.reset = .next t ∧ exec (.crcupd [0x32]) t = .next u ∧
      exec (.crcupd ([0x31] ++ [0x32])) State.reset = .next v := ⟨length_zeros_le (by decide), _, _, _, rfl, rfl, rfl⟩

theorem witness_CrcfinReadsTheStream : ∃ t, exec .crcfin State.reset = .next t := ⟨_, rfl⟩

theorem witness_LoadTooLargeChangesNothing :
    (∃ data : List Byte, data.length = 1519 ∧ 1518 < data.length ∧ data.length ≤ 65535 ∧
      ∃ s : State, s.input = (encode (.load data)).map .byte ++ [HostEvent.reset]) ∧
    (∃ (data : List Byte) (t : State), data.length = 1518 ∧ exec (.load data) State.reset = .next t) :=
  ⟨⟨zeros 1519, length_zeros _, by rw [length_zeros]; decide, length_zeros_le (by decide),
      State.reset.withInput _, rfl⟩,
   ⟨zeros 1518, _, length_zeros _, execLoad_fits _ (length_zeros_le (by decide))⟩⟩

theorem witness_LoadStoresFrameAndHeader :
    (zeros 1518).length ≤ 1518 ∧ ([] : List Byte).length ≤ 1518 :=
  ⟨length_zeros_le (by decide), by decide⟩

theorem witness_LoadParsesTagsThenPayload :
    (headerH.length = 12 ∧ [(0 : Byte), 0, 0, 0].length = 4 ∧
      (headerH ++ tagsBytes [] ++ [0, 0, 0, 0]).length ≤ 1518 ∧
      (headerH ++ tagsBytes [0xB0C8] ++ [0, 0, 0, 0]).length ≤ 1518) ∧
    ((0x8101#16 : Half) ≠ 0x8100#16 ∧
      (headerH ++ tagsBytes [0xB0C8] ++ (halfBytes 0x8101 ++ []) ++ [0, 0, 0, 0]).length ≤ 1518) := by
  decide +kernel

theorem witness_LoadTruncatedKeepsTheNewFrame :
    (headerH.length = 12 ∧ [(0 : Byte), 0, 0, 0].length = 4 ∧ [(0x08 : Byte)].length = 1 ∧
      (headerH ++ tagsBytes [0x1234] ++ [0x08] ++ [0, 0, 0, 0]).length ≤ 1518) ∧
    (∃ tail more : List Byte, more.length ≤ 1 ∧ tail = [0x81, 0x00] ++ more ∧
      (headerH ++ tagsBytes [] ++ tail ++ [0, 0, 0, 0]).length ≤ 1518) :=
  ⟨by decide +kernel, [0x81, 0x00, 0x12], [0x12], by decide, rfl, by decide +kernel⟩

theorem witness_LoadShortHasNoSegments :
    (zeros 16).length ≤ 16 ∧ ([] : List Byte).length ≤ 16 := by decide

theorem witness_LoadAcceptsExactlyTheWireFormat :
    ∃ low high : List Byte, low.length = 16 ∧ high.length = 1518 := 
  ⟨zeros 16, zeros 1518, length_zeros _, length_zeros _⟩

theorem witness_LoadIgnoresHistory :
    ∃ (data : List Byte) (t t' : State), data.length ≤ 1518 ∧ exec (.load data) State.reset = .next t ∧
      exec (.load data) tagState = .next t' :=
  ⟨frameF1, _, _, by decide, execLoad_fits _ (by decide), execLoad_fits _ (by decide)⟩

theorem witness_LoadTilesTheFrame :
    ∃ (data : List Byte) (t : State), 16 ≤ data.length ∧ data.length ≤ 1518 ∧
      exec (.load data) State.reset = .next t ∧ t.response = some ⟨.ok, 0, []⟩ ∧
      ∃ (j : Nat) (tci : Half), t.seg[j]? = some (.vlanTag tci) :=
  ⟨frameF3, _, by decide, by decide, execLoad_fits _ (by decide), by decide +kernel, 0, 0x6064, by decide +kernel⟩

theorem witness_ValidateComparesTheChecksum :
    { State.reset with len := 15 }.len.toNat < 16 ∧
    (16 ≤ { State.reset with len := 16 }.len.toNat ∧ { State.reset with len := 1518 }.len.toNat ≤ 1518) := by
  decide

theorem witness_FcsReadsTheChecksumField :
    State.reset.len.toNat < 16 ∧ { State.reset with len := 15 }.len.toNat < 16 ∧
    (16 ≤ { State.reset with len := 16 }.len.toNat ∧ { State.reset with len := 1518 }.len.toNat ≤ 1518) := by
  decide

theorem witness_GetbufReadsTheFrame :
    State.reset.len.toNat ≤ 1518 ∧ { State.reset with len := 1518 }.len.toNat ≤ 1518 := by decide

theorem witness_LoadReadsBack :
    (∃ t, ([] : List Byte).length ≤ 1518 ∧ exec (.load []) tagState = .next t) ∧
    (∃ t, headerH.length ≤ 1518 ∧ exec (.load headerH) tagState = .next t ∧ 12 ≤ headerH.length) :=
  ⟨⟨_, by decide, execLoad_fits _ (by decide)⟩, ⟨_, by decide, execLoad_fits _ (by decide), by decide⟩⟩

theorem witness_LoadedFrameValidatesIffChecksumMatches :
    (12 ≤ headerH.length ∧ headerH.length + 4 ≤ 1518) ∧
    (∃ front : List Byte, 12 ≤ front.length ∧ front.length + 4 = 1518) :=
  ⟨by decide, zeros 1514, by rw [length_zeros]; decide, by rw [length_zeros]⟩

theorem witness_SelectorBeyondCountIsBadIndex :
    (Instr.selector (.segkind 0) = some 0 ∧ State.reset.nseg.toNat ≤ (0 : Sel).toNat) ∧
    (Instr.selector (.setvid 1 4096) = some 1 ∧ tagState.nseg.toNat ≤ (1 : Sel).toNat) := by decide

theorem witness_WrongVariantIsWrongKind :
    (Instr.gdata 0 ∈ [Instr.getype 0, .gdata 0] ∧ (0 : Sel).toNat < tagState.nseg.toNat ∧
      tagState.seg[(0 : Sel).toNat]? = some (.vlanTag 0x0000)) ∧
    (Instr.setvid 0 4096 ∈ [Instr.tpid 0, .tci 0, .pcp 0, .dei 0, .vid 0, .setpcp 0 4096, .setdei 0 4096,
      .setvid 0 4096] ∧ (0 : Sel).toNat < genericState.nseg.toNat ∧
      genericState.seg[(0 : Sel).toNat]? = some (.generic 0x0000 14 0)) := by decide

/-- The hypotheses of the commands on one entry: beyond the table, a tag, a Generic entry whose data fit. -/
theorem witness_SegkindNamesTheVariant :
    tagState.nseg.toNat ≤ (1 : Sel).toNat ∧
    ((0 : Sel).toNat < tagState.nseg.toNat ∧ tagState.seg[(0 : Sel).toNat]? = some (.vlanTag 0x0000)) ∧
    ((0 : Sel).toNat < genericState.nseg.toNat ∧
      genericState.seg[(0 : Sel).toNat]? = some (.generic 0x0000 14 0)) := by decide

theorem witness_GetypeReadsTheEtherType :
    tagState.nseg.toNat ≤ (1 : Sel).toNat ∧
    ((0 : Sel).toNat < tagState.nseg.toNat ∧ tagState.seg[(0 : Sel).toNat]? = some (.vlanTag 0x0000)) ∧
    ((0 : Sel).toNat < genericState.nseg.toNat ∧
      genericState.seg[(0 : Sel).toNat]? = some (.generic 0x0000 14 0)) := by decide

theorem witness_GdataReadsTheData :
    tagState.nseg.toNat ≤ (1 : Sel).toNat ∧
    ((0 : Sel).toNat < tagState.nseg.toNat ∧ tagState.seg[(0 : Sel).toNat]? = some (.vlanTag 0x0000)) ∧
    ((0 : Sel).toNat < genericState.nseg.toNat ∧
      genericState.seg[(0 : Sel).toNat]? = some (.generic 0x0000 14 0) ∧
      (14 : BitVec 11).toNat + (0 : BitVec 11).toNat ≤ 1518 ∧
      (14 : BitVec 11).toNat + (1504 : BitVec 11).toNat ≤ 1518) := by decide

theorem witness_VlanAccessorsReadTheTag :
    (Instr.vid 1 ∈ [Instr.tpid 1, .tci 1, .pcp 1, .dei 1, .vid 1] ∧ tagState.nseg.toNat ≤ (1 : Sel).toNat) ∧
    ((0 : Sel).toNat < genericState.nseg.toNat ∧
      genericState.seg[(0 : Sel).toNat]? = some (.generic 0x0000 14 0)) ∧
    ((0 : Sel).toNat < tagState.nseg.toNat ∧ tagState.seg[(0 : Sel).toNat]? = some (.vlanTag 0x0000)) := by decide

theorem witness_SetpcpWritesThePriority :
    tagState.nseg.toNat ≤ (1 : Sel).toNat ∧
    ((0 : Sel).toNat < genericState.nseg.toNat ∧
      genericState.seg[(0 : Sel).toNat]? = some (.generic 0x0000 14 0)) ∧
    ((0 : Sel).toNat < tagState.nseg.toNat ∧ tagState.seg[(0 : Sel).toNat]? = some (.vlanTag 0x0000) ∧
      7 < (8 : Half).toNat ∧ (7 : Half).toNat ≤ 7) := by decide

theorem witness_SetdeiWritesTheDropBit :
    tagState.nseg.toNat ≤ (1 : Sel).toNat ∧
    ((0 : Sel).toNat < genericState.nseg.toNat ∧
      genericState.seg[(0 : Sel).toNat]? = some (.generic 0x0000 14 0)) ∧
    ((0 : Sel).toNat < tagState.nseg.toNat ∧ tagState.seg[(0 : Sel).toNat]? = some (.vlanTag 0x0000) ∧
      1 < (2 : Half).toNat ∧ (1 : Half).toNat ≤ 1) := by decide

theorem witness_SetvidWritesTheIdentifier :
    tagState.nseg.toNat ≤ (1 : Sel).toNat ∧
    ((0 : Sel).toNat < genericState.nseg.toNat ∧
      genericState.seg[(0 : Sel).toNat]? = some (.generic 0x0000 14 0)) ∧
    ((0 : Sel).toNat < tagState.nseg.toNat ∧ tagState.seg[(0 : Sel).toNat]? = some (.vlanTag 0x0000) ∧
      4095 < (4096 : Half).toNat ∧ (4095 : Half).toNat ≤ 4095) := by decide

theorem witness_MutatorsTouchOneFieldOnly :
    ∃ t u, mutates (.setvid 0 4095) = some 0 ∧ exec (.setvid 0 4095) tagState = .next t ∧
      tagState.seg[(0 : Sel).toNat]? = some (.vlanTag 0x0000) ∧ Instr.getbuf ∈ [Instr.validate, .fcs, .getbuf] ∧
      exec .getbuf tagState = .next u :=
  ⟨_, _, rfl, rfl, rfl, by decide, rfl⟩

theorem witness_MutatorsRoundTripInAnyOrder :
    [Instr.setvid 0 4095, .setpcp 0 7, .setdei 0 1].Perm [.setpcp 0 7, .setdei 0 1, .setvid 0 4095] ∧
    (7 : Half).toNat ≤ 7 ∧ (1 : Half).toNat ≤ 1 ∧ (4095 : Half).toNat ≤ 4095 ∧
    (0 : Sel).toNat < tagState.nseg.toNat ∧ tagState.seg[(0 : Sel).toNat]? = some (.vlanTag 0x0000) := by
  decide

theorem witness_OnlyTheStreamWritesAcc :
    ∃ t, exec .fstat tagState = .next t ∧ Instr.fstat ≠ .crcinit ∧ ∀ data, Instr.fstat ≠ .crcupd data :=
  ⟨_, rfl, by decide, fun _ => by simp⟩

theorem witness_OnlyLoadWritesTheFrame :
    ∃ t, exec (.setvid 0 1) tagState = .next t ∧ ∀ data, Instr.setvid 0 1 ≠ .load data :=
  ⟨_, rfl, fun _ => by simp⟩

theorem witness_OnlyLoadAndMutatorsWriteSeg :
    ∃ t, exec (.setvid 0 1) tagState = .next t ∧ (∀ data, Instr.setvid 0 1 ≠ .load data) ∧
      ∃ j : Nat, ∀ sel, mutates (.setvid 0 1) = some sel → sel.toNat ≠ j :=
  ⟨_, rfl, fun _ => by simp, 1, fun sel h => by obtain rfl : (0 : Sel) = sel := by simpa [mutates] using h
                                                decide⟩

theorem witness_ReadOnlyCommandsCommute :
    ∃ t u, readOnly .fstat = true ∧ exec .fstat tagState = .next t ∧ exec (.setvid 0 1) tagState = .next u :=
  ⟨_, _, rfl, rfl, rfl⟩

/-- An error that leaves the state, and the one that does not: BadIndex at reset, TruncatedSegment on 17 bytes. -/
theorem witness_ErrorsLeaveTheState :
    (∃ t r, exec (.segkind 0) State.reset = .next t ∧ t.response = some r ∧ r.status ≠ .ok ∧
      r.status ≠ .truncatedSegment) ∧
    (∃ t r, exec (.load (zeros 17)) State.reset = .next t ∧ t.response = some r ∧ r.status ≠ .ok) :=
  ⟨⟨_, _, rfl, rfl, by decide, by decide⟩,
   ⟨_, ⟨.truncatedSegment, 0, []⟩, execLoad_fits _ (by decide), by decide +kernel, by decide⟩⟩

theorem witness_ErrorsRepeat :
    (∃ t r, exec (.segkind 0) State.reset = .next t ∧ t.response = some r ∧ r.status ≠ .ok) ∧
    (∃ t r, exec (.load (zeros 17)) State.reset = .next t ∧ t.response = some r ∧ r.status ≠ .ok) :=
  ⟨⟨_, _, rfl, rfl, by decide⟩,
   ⟨_, ⟨.truncatedSegment, 0, []⟩, execLoad_fits _ (by decide), by decide +kernel, by decide⟩⟩

theorem witness_ResponsesHaveTheirForm : ∃ t, exec .getdst tagState = .next t := ⟨_, rfl⟩

theorem witness_CommandsIgnoreThePort : ∃ t, exec (.setvid 0 1) tagState = .next t := ⟨_, rfl⟩

theorem witness_StepKeepsTheInvariants :
    ∃ s t : State, s.Inv ∧ step s = .next t := ⟨tagState, tagState, tagState_inv, rfl⟩

theorem witness_StepAlwaysAnswers : ∃ s : State, s.Inv := ⟨tagState, tagState_inv⟩

/-- Both faults, in states that break the invariants. -/
theorem witness_FaultsNameTheirCause :
    exec .getbuf { State.reset with len := 1519 } = .fault .outsideBuffer ∧
    exec (.gdata 0) { State.reset with nseg := 1, seg := [.generic 0 1518 1] } = .fault .outsideBuffer ∧
    exec (.segkind 0) { State.reset with nseg := 1 } = .fault .segmentAbsent := ⟨rfl, rfl, rfl⟩

theorem witness_UnparsedMeansBadIndex :
    ∃ s : State, s.Inv ∧ s.parsed = false ∧ Instr.selector (.vid 0) = some 0 :=
  ⟨unparsedState, unparsedState_inv, rfl, rfl⟩

theorem witness_CanonicalMemoriesAreEqual :
    ∃ m n : Memory, m.wf = true ∧ n.wf = true ∧ (∀ a, m.byteAt a = n.byteAt a) ∧ m ≠ [] :=
  ⟨[(3, 1), (1517, 2)], [(3, 1), (1517, 2)], by decide, by decide, fun _ => rfl, by decide⟩

theorem witness_DecodeInvertsEncode :
    Instr.wf (.load [0x01]) = true ∧ Instr.wf (.setvid 1023 65535) = true ∧
    Instr.wf (.crc32 (zeros 65535)) = true := ⟨by decide, by decide, by
      simp only [Instr.wf, length_zeros]; decide⟩

theorem witness_EncodeInvertsDecode :
    ([0xAA] : List Byte).length = plen 0x20000001 ∧
    decodeCommand 0x20000001 [0xAA] = .command (.load [0xAA]) := by decide +kernel

theorem witness_DecoderFollowsTheOpcodeTable :
    (∃ row ∈ opcodeTable, row.selects 0x7FFFFFFF = true) ∧
    decodeCommand 0x7FFFFFFF [] = .command (.setvid 1023 65535) := by decide +kernel

theorem witness_IllegalWordIsAnsweredAndSkipped :
    (∀ row ∈ opcodeTable, row.selects 0x20010014 = false) ∧
    ∃ (s : State) (rest : List HostEvent), s.input = (wordBytes 0x20010014).map .byte ++ rest :=
  ⟨by decide +kernel, State.reset.withInput _, [.byte 0x24], rfl⟩

theorem witness_StepRunsTheDecodedCommand :
    (∃ (s : State) (rest : List HostEvent), Instr.wf .validate = true ∧
      s.input = (encode .validate).map .byte ++ rest) ∧
    (∃ s : State, decode (leadingBytes s.input) = .command .validate [0x20]) :=
  ⟨⟨State.reset.withInput _, [.reset], rfl, rfl⟩,
   ⟨State.reset.withInput [.byte 0x24, .byte 0, .byte 0, .byte 0, .byte 0x20, .reset], by decide +kernel⟩⟩

theorem witness_PartialCommandWaitsOrResets :
    ([0x20, 0x00, 0x00] : List Byte).length < 4 ∧
    ([0x31] : List Byte).length < plen 0x20000002 ∧
    (decode [0x20, 0x00, 0x00] = .incomplete ∧
      (∃ s : State, s.input = ([0x20, 0x00, 0x00] : List Byte).map .byte) ∧
      ∃ s : State, s.input = ([0x20, 0x00, 0x00] : List Byte).map .byte ++ .reset :: [.byte 0x24]) :=
  ⟨by decide, by decide +kernel, by decide +kernel, ⟨State.reset.withInput _, rfl⟩, ⟨State.reset.withInput _, rfl⟩⟩

theorem witness_ResetStateAnswers : Instr.selector (.setvid 1023 65535) = some 1023 := rfl

end Sys2Proof.Tests
end

section
/-! The serial form, byte by byte (30_encoding.md R85): the bytes of a word as quotients of its value, and the bytes
of a response's first word. -/

namespace Sys2Proof

/-- A byte slice of a bit vector is its value divided by the place of its lowest bit, modulo `2 ^ 8`. -/
theorem extractByte_eq_ofNat_div {n : Nat} (w : BitVec n) (start : Nat) :
    w.extractLsb' start 8 = BitVec.ofNat 8 (w.toNat / 2 ^ start) := by
  rw [BitVec.extractLsb', Nat.shiftRight_eq_div_pow]

theorem wordBytes_eq_ofNat (w : Word) :
    wordBytes w = [BitVec.ofNat 8 (w.toNat / 2 ^ 24), BitVec.ofNat 8 (w.toNat / 2 ^ 16),
      BitVec.ofNat 8 (w.toNat / 2 ^ 8), BitVec.ofNat 8 w.toNat] := by
  simp only [wordBytes, extractByte_eq_ofNat_div, Nat.pow_zero, Nat.div_one]

/-- The value of two bytes in front of a 16-bit field. -/
theorem toNat_byte_append_byte_append_half (a b : Byte) (h : Half) :
    (a ++ b ++ h).toNat = (a.toNat * 2 ^ 8 + b.toNat) * 2 ^ 16 + h.toNat := by
  rw [BitVec.toNat_append, ← Nat.shiftLeft_add_eq_or_of_lt h.isLt, BitVec.toNat_append,
    ← Nat.shiftLeft_add_eq_or_of_lt b.isLt, Nat.shiftLeft_eq, Nat.shiftLeft_eq]

/-- The bytes of `RW0 = {status, 0x00, outlen}` (30_encoding.md R85): its two byte fields, then the two bytes of its
16-bit field. -/
theorem wordBytes_byte_append_byte_append_ofNat (a b : Byte) (n : Nat) :
    wordBytes (a ++ b ++ BitVec.ofNat 16 n) = [a, b, BitVec.ofNat 8 (n / 2 ^ 8), BitVec.ofNat 8 n] := by
  have value := toNat_byte_append_byte_append_half a b (BitVec.ofNat 16 n)
  rw [BitVec.toNat_ofNat] at value
  simp only [wordBytes_eq_ofNat, value, List.cons.injEq, and_true, ← BitVec.toNat_inj, BitVec.toNat_ofNat]
  have ha := a.isLt
  have hb := b.isLt
  refine ⟨?_, ?_, ?_, ?_⟩ <;> omega

theorem encode_eq_ofNat (i : Instr) :
    encode i = [BitVec.ofNat 8 ((encodeWord i).toNat / 2 ^ 24), BitVec.ofNat 8 ((encodeWord i).toNat / 2 ^ 16),
      BitVec.ofNat 8 ((encodeWord i).toNat / 2 ^ 8), BitVec.ofNat 8 (encodeWord i).toNat] ++ i.payload := by
  rw [encode, wordBytes_eq_ofNat]

theorem Machine.Response.serial_eq_ofNat (r : Machine.Response) :
    r.serial = [r.status.code, 0x00, BitVec.ofNat 8 (r.out.length / 2 ^ 8), BitVec.ofNat 8 r.out.length,
      BitVec.ofNat 8 (r.result.toNat / 2 ^ 24), BitVec.ofNat 8 (r.result.toNat / 2 ^ 16),
      BitVec.ofNat 8 (r.result.toNat / 2 ^ 8), BitVec.ofNat 8 r.result.toNat] ++ r.out := by
  rw [Machine.Response.serial, wordBytes_byte_append_byte_append_ofNat, wordBytes_eq_ofNat]
  rfl

/-- Settles O58: the general clauses from the bytes of a word, the rule's two examples by evaluation. -/
theorem serialFormIsBigEndian : Obligations.SerialFormIsBigEndian :=
  ⟨encode_eq_ofNat, Machine.Response.serial_eq_ofNat, by decide, by decide, by decide, by decide⟩

end Sys2Proof
end

section
/-! The checksum engine (40_crc.md R110 to R113): the rounds as iterates, the run by cases of the bytes, the complement
form of the checksum, the words of format P, and what CRC32, CRCINIT and CRCFIN do to a state. -/

namespace Sys2Proof

/-! ### Words of format P (30_encoding.md R81, R82) -/

theorem formatP_of_sel_zero {w : Word} (h : selField w = 0) (i : Instr) : formatP w i = .command i := if_pos h

theorem formatP_of_sel_ne_zero {w : Word} (h : selField w ≠ 0) (i : Instr) :
    formatP w i = .illegal .reservedNotZero := if_neg h

/-- The value of a command word is `op·2^26 + sel·2^16 + imm` (30_encoding.md R81). -/
theorem toNat_mkWord (op : BitVec 6) (sel : Sel) (imm : Half) :
    (mkWord op sel imm).toNat = (op.toNat * 2 ^ 10 + sel.toNat) * 2 ^ 16 + imm.toNat := by
  rw [mkWord, BitVec.toNat_append, ← Nat.shiftLeft_add_eq_or_of_lt imm.isLt, BitVec.toNat_append,
    ← Nat.shiftLeft_add_eq_or_of_lt sel.isLt, Nat.shiftLeft_eq, Nat.shiftLeft_eq]

/-- A word of format P as the rules write it: the word of its `op`, plus the length of its payload. -/
theorem mkWord_zero_add_length (op : BitVec 6) {n : Nat} (h : n ≤ 65535) :
    mkWord op 0 0 + BitVec.ofNat 32 n = mkWord op 0 (BitVec.ofNat 16 n) := by
  have hop := op.isLt
  apply BitVec.eq_of_toNat_eq
  simp only [BitVec.toNat_add, toNat_mkWord, BitVec.ofNat_eq_ofNat, BitVec.toNat_ofNat]
  omega

theorem decodeCommand_crc32 {w : Word} (h : opField w = 0x01) (data : List Byte) :
    decodeCommand w data = formatP w (.crc32 data) := by
  rw [decodeCommand, h]
  rfl

namespace Machine

/-! ### The checksum function (40_crc.md R110, R111) -/

theorem crcRounds_eq_iterate (n : Nat) (a : Word) : crcRounds n a = crcRound^[n] a := by
  induction n generalizing a with
  | zero => rfl
  | succ k ih => exact ih (crcRound a)

theorem crcByte_eq_iterate (acc : Word) (b : Byte) : crcByte acc b = crcRound^[8] (acc ^^^ b.setWidth 32) :=
  crcRounds_eq_iterate 8 _

@[simp] theorem crcRun_nil (acc : Word) : crcRun acc [] = acc := rfl

@[simp] theorem crcRun_cons (acc : Word) (b : Byte) (rest : List Byte) :
    crcRun acc (b :: rest) = crcRun (crcByte acc b) rest := rfl

/-- CRC_XOROUT is all ones, so the final XOR is the complement. -/
theorem crcFinal_eq_not (acc : Word) : crcFinal acc = ~~~acc := BitVec.xor_allOnes

theorem crc32_eq_not_crcRun (data : List Byte) : crc32 data = ~~~crcRun Config.crcInit data := crcFinal_eq_not _

@[simp] theorem not_crcInit : ~~~Config.crcInit = 0 := BitVec.not_allOnes

theorem crc32_nil : crc32 [] = 0 := by rw [crc32_eq_not_crcRun, crcRun_nil, not_crcInit]

/-- The check value of the checksum, of "123456789" (40_crc.md R112). -/
theorem crc32_check : crc32 [0x31, 0x32, 0x33, 0x34, 0x35, 0x36, 0x37, 0x38, 0x39] = 0xCBF43926 := by
  decide +kernel

/-! ### The commands (40_crc.md R112, R113, R115) -/

theorem exec_crc32 (data : List Byte) (s : State) : exec (.crc32 data) s = .next (s.answer (crc32 data) []) := rfl

theorem exec_crcinit (s : State) : exec .crcinit s = .next ((s.setAcc Config.crcInit).answer 0 []) := rfl

theorem exec_crcfin (s : State) : exec .crcfin s = .next (s.answer (~~~s.acc) []) :=
  congrArg (fun result => Host.Outcome.next (s.answer result [])) (crcFinal_eq_not s.acc)

theorem eq_of_exec_crcinit {s t : State} (h : exec .crcinit s = .next t) :
    t = (s.setAcc Config.crcInit).answer 0 [] :=
  (Host.Outcome.next.inj ((exec_crcinit s).symm.trans h)).symm

end Machine

/-! ### The statements -/

open Machine

/-- Settles O1: the rounds as iterates and the complement form of the checksum; the traces by evaluation. -/
theorem crcIsTheBitSerialFold : Obligations.CrcIsTheBitSerialFold :=
  ⟨crcByte_eq_iterate, by decide, by decide, by decide, by decide, by decide, by decide,
    crcRun_nil, crcRun_cons, crc32_eq_not_crcRun, crc32_nil⟩

/-- Settles O5: the word is CRC32's `op` with a zero selector, or is refused by format P; the answer is the complement
form of the checksum. -/
theorem crc32AnswersTheChecksum : Obligations.Crc32AnswersTheChecksum := by
  refine ⟨fun data fits => ?_, fun w data op sel => ?_, fun data s => ?_, fun s => ?_, fun s => ?_⟩
  · have word : 0x04000000#32 + BitVec.ofNat 32 data.length = mkWord 0x01 0 (BitVec.ofNat 16 data.length) :=
      mkWord_zero_add_length 0x01 fits
    rw [word, decodeCommand_crc32 (opField_mkWord _ _ _), formatP_of_sel_zero (selField_mkWord _ _ _)]
  · rw [decodeCommand_crc32 op, formatP_of_sel_ne_zero sel]
  · rw [exec_crc32, crc32_eq_not_crcRun, State.answer]
  · rw [exec_crc32, crc32_nil, State.answer]
  · rw [exec_crc32, crc32_check, State.answer]

/-- Settles O6: the state after CRCINIT is the one before it with ACC all ones and the answer, from which the second
CRCINIT and CRCFIN follow. -/
theorem crcinitStartsTheStream : Obligations.CrcinitStartsTheStream := by
  refine ⟨by decide, exec_crcinit, fun s t u first second => ?_, rfl, fun s t first => ?_⟩
  · rw [eq_of_exec_crcinit second, eq_of_exec_crcinit first]
    rfl
  · have acc : t.acc = Config.crcInit := by rw [eq_of_exec_crcinit first, State.answer_acc, State.setAcc_acc]
    have value : ~~~t.acc = 0x00000000 := by rw [acc, not_crcInit]
    rw [exec_crcfin, value, State.answer]

end Sys2Proof
end

section
/-! The frame commands (41_frame.md R132, R133, R138, R139): the addresses a filled buffer begins with, what LOAD leaves
whatever the segment loop does, the checksum field read off the end of the frame, and the value of FSTAT's word. -/

namespace Sys2Proof

/-- The value of two bit vectors joined, the first one above the second. -/
theorem toNat_append_eq_mul_add {m n : Nat} (x : BitVec m) (y : BitVec n) :
    (x ++ y).toNat = x.toNat * 2 ^ n + y.toNat := by
  rw [BitVec.toNat_append, ← Nat.shiftLeft_add_eq_or_of_lt y.isLt, Nat.shiftLeft_eq]

namespace Machine

/-! ### LOAD (41_frame.md R132, R133) -/

/-- An address taken off a filled buffer is six payload bytes, zero where the payload has none. -/
theorem MacAddr.ofBuf_fill (data : List Byte) (a : Nat) :
    MacAddr.ofBuf (Memory.fill data) a = ⟨data.getD a 0, data.getD (a + 1) 0, data.getD (a + 2) 0,
      data.getD (a + 3) 0, data.getD (a + 4) 0, data.getD (a + 5) 0⟩ := by
  simp only [MacAddr.ofBuf, Memory.byteAt_fill]

theorem exec_load_fits {data : List Byte} (s : State) (h : data.length ≤ 1518) :
    exec (.load data) s = .next (s.copyFrame data).extractHeader.parseSegments := execLoad_fits s h

/-- HDR after a LOAD that fits is read off the filled buffer, whatever the segment loop does. -/
theorem State.loaded_hdr (s : State) (data : List Byte) :
    (s.copyFrame data).extractHeader.parseSegments.hdr = Header.ofBuf (Memory.fill data) := by
  rw [State.parseSegments_hdr, State.extractHeader_hdr, State.copyFrame_buf]

/-! ### FCS (41_frame.md R138) -/

theorem exec_fcs (s : State) :
    exec .fcs s = s.withChecksumField fun field => .next (s.answer field []) := rfl

theorem exec_fcs_short {s : State} (h : s.len.toNat < 16) : exec .fcs s = .next (s.raise .frameTooShort) := by
  rw [exec_fcs, State.withChecksumField_short h]

theorem exec_fcs_read {s : State} (h : 16 ≤ s.len.toNat) (hb : s.len.toNat ≤ 1518) :
    exec .fcs s = .next (s.answer (s.buf.read4 (s.len.toNat - 4)) []) := by
  rw [exec_fcs, State.withChecksumField_read h hb]

/-- The four bytes below offset `n`, as the word that the lowest of them leads (20_memory.md R53). -/
theorem Memory.read4_sub_four (m : Memory) {n : Nat} (h : 4 ≤ n) :
    m.read4 (n - 4) = wordOfBytes (m.byteAt (n - 4)) (m.byteAt (n - 3)) (m.byteAt (n - 2)) (m.byteAt (n - 1)) := by
  obtain ⟨k, rfl⟩ := Nat.exists_eq_add_of_le' h
  exact Memory.read4_eq m k

/-! ### FSTAT (41_frame.md R139) -/

theorem exec_fstat (s : State) : exec .fstat s = .next (s.answer (statWord s.parsed s.nseg s.len) []) := rfl

theorem toNat_statWord (parsed : Bool) (nseg : BitVec 9) (len : BitVec 11) :
    (statWord parsed nseg len).toNat = parsed.toNat * 2 ^ 31 + nseg.toNat * 2 ^ 16 + len.toNat := by
  simp only [statWord, toNat_append_eq_mul_add, BitVec.toNat_ofBool, BitVec.toNat_ofNat]
  omega

theorem statWord_eq_ofNat (parsed : Bool) (nseg : BitVec 9) (len : BitVec 11) :
    statWord parsed nseg len = BitVec.ofNat 32 (parsed.toNat * 2 ^ 31 + nseg.toNat * 2 ^ 16 + len.toNat) := by
  rw [← toNat_statWord, BitVec.ofNat_toNat, BitVec.setWidth_eq]

end Machine

/-! ### The statements -/

open Machine

/-- Settles O11: the parse keeps what the copy and the header extraction wrote, so every element is read off the filled
buffer. -/
theorem loadStoresFrameAndHeader : Obligations.LoadStoresFrameAndHeader := by
  intro data s fits
  refine ⟨_, exec_load_fits s fits, fun a => ?_, ?_, ?_, ?_, ?_, ?_⟩
  · rw [State.parseSegments_buf, State.extractHeader_buf, State.copyFrame_buf, Memory.byteAt_fill]
  · rw [State.parseSegments_len, State.extractHeader_len, State.copyFrame_len, len_ofNat fits]
  · rw [State.loaded_hdr]
    exact MacAddr.ofBuf_fill data 0
  · rw [State.loaded_hdr]
    exact MacAddr.ofBuf_fill data 6
  · rw [State.parseSegments_acc, State.extractHeader_acc, State.copyFrame_acc]
  · rw [State.parseSegments_input, State.extractHeader_input, State.copyFrame_input]

/-- Settles O20: the checksum field starts four bytes below LEN. -/
theorem fcsReadsTheChecksumField : Obligations.FcsReadsTheChecksumField := by
  refine ⟨by decide, fun s short => exec_fcs_short short, fun s long bound => ?_⟩
  have four : 4 ≤ s.len.toNat := by omega
  rw [exec_fcs_read long bound, Memory.read4_sub_four _ four, State.answer]

/-- Settles O21: the packed word is the sum of its fields at their places. -/
theorem fstatPacksTheStatus : Obligations.FstatPacksTheStatus := by
  refine ⟨by decide, fun s => ?_⟩
  rw [exec_fstat, statWord_eq_ofNat, State.answer]

end Sys2Proof
end

section
/-! The VLAN commands (43_vlan.md R170 to R180): the words of formats S and V, the fields of a TCI by arithmetic and
under the three writes, what an accessor and a mutator answer, and what neither they nor a later LOAD can tell apart. -/

namespace Sys2Proof

/-! ### Words of formats S and V (30_encoding.md R81, R82) -/

/-- The word of a command with its payload decodes to the command (30_encoding.md R86). No bound on the payload is
needed here: the decoder is handed the payload. -/
theorem decodeCommand_encodeWord (i : Instr) : decodeCommand (encodeWord i) i.payload = .command i := by
  cases i <;> rw [encodeWord, Instr.payload, decodeCommand, opField_mkWord] <;>
    simp [formatN, formatP, formatS, formatV]

/-- A word of format V as the rules write it: the word of its `op`, plus the selector at bit 16, plus the value. -/
theorem mkWord_zero_add_sel_add_value (op : BitVec 6) (sel : Sel) (value : Half) :
    mkWord op 0 0 + sel.setWidth 32 * 0x10000#32 + value.setWidth 32 = mkWord op sel value := by
  have hop := op.isLt
  have hsel := sel.isLt
  have hvalue := value.isLt
  have place : (sel.setWidth 32 * 0x10000#32).toNat = sel.toNat * 2 ^ 16 := by
    rw [BitVec.toNat_mul, BitVec.toNat_setWidth_of_le (by decide), BitVec.toNat_ofNat]
    omega
  have head : (mkWord op 0 0).toNat = op.toNat * 2 ^ 10 * 2 ^ 16 := by
    simp only [toNat_mkWord, BitVec.ofNat_eq_ofNat, BitVec.toNat_zero, Nat.add_zero]
  apply BitVec.eq_of_toNat_eq
  rw [BitVec.toNat_add, BitVec.toNat_add, head, place, toNat_mkWord, BitVec.toNat_setWidth_of_le (by decide)]
  omega

/-- A word of format S as the rules write it. -/
theorem mkWord_zero_add_sel (op : BitVec 6) (sel : Sel) :
    mkWord op 0 0 + sel.setWidth 32 * 0x10000#32 = mkWord op sel 0 := by
  have zero : (0 : Half).setWidth 32 = 0#32 := rfl
  rw [← mkWord_zero_add_sel_add_value op sel 0, zero, BitVec.add_zero]

/-- The rules' word of format V decodes to the command whose encoding has its fields. -/
theorem decodeCommand_valueWord {i : Instr} {head : Word} {op : BitVec 6} {sel : Sel} {value : Half}
    (hhead : head = mkWord op 0 0) (word : encodeWord i = mkWord op sel value) (noPayload : i.payload = []) :
    decodeCommand (head + sel.setWidth 32 * 0x10000#32 + value.setWidth 32) [] = .command i := by
  rw [hhead, mkWord_zero_add_sel_add_value, ← word, ← noPayload, decodeCommand_encodeWord]

/-- The rules' word of format S decodes to the command whose encoding has its fields. -/
theorem decodeCommand_selectorWord {i : Instr} {head : Word} {op : BitVec 6} {sel : Sel}
    (hhead : head = mkWord op 0 0) (word : encodeWord i = mkWord op sel 0) (noPayload : i.payload = []) :
    decodeCommand (head + sel.setWidth 32 * 0x10000#32) [] = .command i := by
  rw [hhead, mkWord_zero_add_sel, ← word, ← noPayload, decodeCommand_encodeWord]

namespace Machine

/-! ### The fields of a TCI (43_vlan.md R170) -/

theorem toNat_tciPcp (t : Half) : (tciPcp t).toNat = t.toNat / 8192 := by
  have ht := t.isLt
  rw [tciPcp, BitVec.extractLsb'_toNat, Nat.shiftRight_eq_div_pow]
  omega

theorem toNat_tciDei (t : Half) : (tciDei t).toNat = t.toNat / 4096 % 2 := by
  rw [tciDei, BitVec.extractLsb'_toNat, Nat.shiftRight_eq_div_pow]

theorem toNat_tciVid (t : Half) : (tciVid t).toNat = t.toNat % 4096 := by
  rw [tciVid, BitVec.extractLsb'_toNat, Nat.shiftRight_zero]

theorem toNat_tciPack (p : BitVec 3) (d : BitVec 1) (v : BitVec 12) :
    (tciPack p d v).toNat = p.toNat * 8192 + d.toNat * 4096 + v.toNat := by
  simp only [tciPack, toNat_append_eq_mul_add]
  omega

@[simp] theorem tciPcp_tciPack (p : BitVec 3) (d : BitVec 1) (v : BitVec 12) : tciPcp (tciPack p d v) = p := by
  have hd := d.isLt
  have hv := v.isLt
  apply BitVec.eq_of_toNat_eq
  rw [toNat_tciPcp, toNat_tciPack]
  omega

@[simp] theorem tciDei_tciPack (p : BitVec 3) (d : BitVec 1) (v : BitVec 12) : tciDei (tciPack p d v) = d := by
  have hd := d.isLt
  have hv := v.isLt
  apply BitVec.eq_of_toNat_eq
  rw [toNat_tciDei, toNat_tciPack]
  omega

@[simp] theorem tciVid_tciPack (p : BitVec 3) (d : BitVec 1) (v : BitVec 12) : tciVid (tciPack p d v) = v := by
  have hv := v.isLt
  apply BitVec.eq_of_toNat_eq
  rw [toNat_tciVid, toNat_tciPack]
  omega

@[simp] theorem tciPack_fields (t : Half) : tciPack (tciPcp t) (tciDei t) (tciVid t) = t := by
  apply BitVec.eq_of_toNat_eq
  rw [toNat_tciPack, toNat_tciPcp, toNat_tciDei, toNat_tciVid]
  omega

/-! ### Writing a field (43_vlan.md R177 to R179)

A mask that clears one field, and a value shifted to its place, are packs as well; `and` and `or` of two packs go field
by field. -/

theorem tciPack_and (p q : BitVec 3) (d e : BitVec 1) (v w : BitVec 12) :
    tciPack p d v &&& tciPack q e w = tciPack (p &&& q) (d &&& e) (v &&& w) := by
  have upper : (p ++ d) &&& (q ++ e) = (p &&& q) ++ (d &&& e) := BitVec.and_append
  exact BitVec.and_append.trans (congrArg (· ++ (v &&& w)) upper)

theorem tciPack_or (p q : BitVec 3) (d e : BitVec 1) (v w : BitVec 12) :
    tciPack p d v ||| tciPack q e w = tciPack (p ||| q) (d ||| e) (v ||| w) := by
  have upper : (p ++ d) ||| (q ++ e) = (p ||| q) ++ (d ||| e) := BitVec.or_append
  exact BitVec.or_append.trans (congrArg (· ++ (v ||| w)) upper)

/-- A value that fits a field is the zero extension of the field it becomes. -/
theorem exists_setWidth_eq {n : Nat} {value : Half} (h : value.toNat < 2 ^ n) :
    ∃ field : BitVec n, field.toNat = value.toNat ∧ field.setWidth 16 = value := by
  refine ⟨value.setWidth n, ?_, BitVec.eq_of_toNat_eq ?_⟩
  · rw [BitVec.toNat_setWidth, Nat.mod_eq_of_lt h]
  · rw [BitVec.toNat_setWidth, BitVec.toNat_setWidth, Nat.mod_eq_of_lt h, Nat.mod_eq_of_lt value.isLt]

theorem setWidth_mul_8192_eq_tciPack (p : BitVec 3) : p.setWidth 16 * 8192#16 = tciPack p 0 0 := by
  have hp := p.isLt
  apply BitVec.eq_of_toNat_eq
  simp only [toNat_tciPack, BitVec.toNat_mul, BitVec.toNat_setWidth, BitVec.ofNat_eq_ofNat, BitVec.toNat_ofNat]
  omega

theorem setWidth_mul_4096_eq_tciPack (d : BitVec 1) : d.setWidth 16 * 4096#16 = tciPack 0 d 0 := by
  have hd := d.isLt
  apply BitVec.eq_of_toNat_eq
  simp only [toNat_tciPack, BitVec.toNat_mul, BitVec.toNat_setWidth, BitVec.ofNat_eq_ofNat, BitVec.toNat_ofNat]
  omega

theorem setWidth_eq_tciPack (v : BitVec 12) : v.setWidth 16 = tciPack 0 0 v := by
  have hv := v.isLt
  apply BitVec.eq_of_toNat_eq
  simp only [toNat_tciPack, BitVec.toNat_setWidth, BitVec.ofNat_eq_ofNat, BitVec.toNat_ofNat]
  omega

theorem tciSetPcp_eq_tciPack (t : Half) (p : BitVec 3) :
    tciSetPcp t (p.setWidth 16) = tciPack p (tciDei t) (tciVid t) := by
  have mask : 0x1FFF#16 = tciPack 0 (BitVec.allOnes 1) (BitVec.allOnes 12) := by decide
  conv_lhs => rw [← tciPack_fields t]
  rw [tciSetPcp, mask, setWidth_mul_8192_eq_tciPack, tciPack_and, tciPack_or]
  simp only [BitVec.ofNat_eq_ofNat, BitVec.and_allOnes, BitVec.and_zero, BitVec.zero_or, BitVec.or_zero]

theorem tciSetDei_eq_tciPack (t : Half) (d : BitVec 1) :
    tciSetDei t (d.setWidth 16) = tciPack (tciPcp t) d (tciVid t) := by
  have mask : 0xEFFF#16 = tciPack (BitVec.allOnes 3) 0 (BitVec.allOnes 12) := by decide
  conv_lhs => rw [← tciPack_fields t]
  rw [tciSetDei, mask, setWidth_mul_4096_eq_tciPack, tciPack_and, tciPack_or]
  simp only [BitVec.ofNat_eq_ofNat, BitVec.and_allOnes, BitVec.and_zero, BitVec.zero_or, BitVec.or_zero]

theorem tciSetVid_eq_tciPack (t : Half) (v : BitVec 12) :
    tciSetVid t (v.setWidth 16) = tciPack (tciPcp t) (tciDei t) v := by
  have mask : 0xF000#16 = tciPack (BitVec.allOnes 3) (BitVec.allOnes 1) 0 := by decide
  conv_lhs => rw [← tciPack_fields t]
  rw [tciSetVid, mask, setWidth_eq_tciPack, tciPack_and, tciPack_or]
  simp only [BitVec.ofNat_eq_ofNat, BitVec.and_allOnes, BitVec.and_zero, BitVec.zero_or, BitVec.or_zero]

theorem tciSetPcp_eq_ofNat (t : Half) {value : Half} (h : value.toNat ≤ 7) :
    tciSetPcp t value = BitVec.ofNat 16 (value.toNat * 8192 + t.toNat % 8192) := by
  obtain ⟨p, hp, rfl⟩ := exists_setWidth_eq (n := 3) (Nat.lt_succ_of_le h)
  have fields : p.toNat * 8192 + t.toNat / 4096 % 2 * 4096 + t.toNat % 4096 = p.toNat * 8192 + t.toNat % 8192 := by
    omega
  rw [tciSetPcp_eq_tciPack, ← hp, ← fields, ← toNat_tciDei, ← toNat_tciVid, ← toNat_tciPack, BitVec.ofNat_toNat,
    BitVec.setWidth_eq]

theorem tciSetDei_eq_ofNat (t : Half) {value : Half} (h : value.toNat ≤ 1) :
    tciSetDei t value = BitVec.ofNat 16 (t.toNat / 8192 * 8192 + value.toNat * 4096 + t.toNat % 4096) := by
  obtain ⟨d, hd, rfl⟩ := exists_setWidth_eq (n := 1) (Nat.lt_succ_of_le h)
  rw [tciSetDei_eq_tciPack, ← hd, ← toNat_tciPcp, ← toNat_tciVid, ← toNat_tciPack, BitVec.ofNat_toNat,
    BitVec.setWidth_eq]

theorem tciSetVid_eq_ofNat (t : Half) {value : Half} (h : value.toNat ≤ 4095) :
    tciSetVid t value = BitVec.ofNat 16 (t.toNat / 4096 * 4096 + value.toNat) := by
  obtain ⟨v, hv, rfl⟩ := exists_setWidth_eq (n := 12) (Nat.lt_succ_of_le h)
  have fields : t.toNat / 8192 * 8192 + t.toNat / 4096 % 2 * 4096 + v.toNat = t.toNat / 4096 * 4096 + v.toNat := by
    omega
  rw [tciSetVid_eq_tciPack, ← hv, ← fields, ← toNat_tciPcp, ← toNat_tciDei, ← toNat_tciPack, BitVec.ofNat_toNat,
    BitVec.setWidth_eq]

/-! ### The accessors (43_vlan.md R172 to R176) -/

theorem exec_tpid (sel : Sel) (s : State) :
    exec (.tpid sel) s = s.withTag sel fun _ => .next (s.answer (Config.tpidVlan.setWidth 32) []) := rfl

theorem exec_tci (sel : Sel) (s : State) :
    exec (.tci sel) s = s.withTag sel fun t => .next (s.answer (t.setWidth 32) []) := rfl

theorem exec_pcp (sel : Sel) (s : State) :
    exec (.pcp sel) s = s.withTag sel fun t => .next (s.answer ((tciPcp t).setWidth 32) []) := rfl

theorem exec_dei (sel : Sel) (s : State) :
    exec (.dei sel) s = s.withTag sel fun t => .next (s.answer ((tciDei t).setWidth 32) []) := rfl

theorem exec_vid (sel : Sel) (s : State) :
    exec (.vid sel) s = s.withTag sel fun t => .next (s.answer ((tciVid t).setWidth 32) []) := rfl

/-- Every accessor is a read of one tag behind the same selector check. -/
theorem exec_accessor {i : Instr} {sel : Sel} (h : i ∈ [Instr.tpid sel, .tci sel, .pcp sel, .dei sel, .vid sel])
    (s : State) : ∃ k, exec i s = s.withTag sel k := by
  simp only [List.mem_cons, List.not_mem_nil, or_false] at h
  obtain rfl | rfl | rfl | rfl | rfl := h
  · exact ⟨_, exec_tpid sel s⟩
  · exact ⟨_, exec_tci sel s⟩
  · exact ⟨_, exec_pcp sel s⟩
  · exact ⟨_, exec_dei sel s⟩
  · exact ⟨_, exec_vid sel s⟩

/-! ### The mutators (43_vlan.md R177 to R180) -/

theorem exec_setpcp (sel : Sel) (value : Half) (s : State) :
    exec (.setpcp sel value) s = s.mutateTag sel value 7 tciSetPcp := rfl

theorem exec_setdei (sel : Sel) (value : Half) (s : State) :
    exec (.setdei sel value) s = s.mutateTag sel value 1 tciSetDei := rfl

theorem exec_setvid (sel : Sel) (value : Half) (s : State) :
    exec (.setvid sel value) s = s.mutateTag sel value 4095 tciSetVid := rfl

section
variable {s : State} {sel : Sel} {value : Half} {largest : Nat} {write : Half → Half → Half}

theorem State.mutateTag_badIndex (h : s.nseg.toNat ≤ sel.toNat) :
    s.mutateTag sel value largest write = .next (s.raise .badIndex) := State.withTag_badIndex h

theorem State.mutateTag_generic {ty : Half} {doff dlen : BitVec 11} (h : sel.toNat < s.nseg.toNat)
    (entry : s.seg[sel.toNat]? = some (.generic ty doff dlen)) :
    s.mutateTag sel value largest write = .next (s.raise .wrongKind) := State.withTag_generic h entry

theorem State.mutateTag_large {tci : Half} (h : sel.toNat < s.nseg.toNat)
    (entry : s.seg[sel.toNat]? = some (.vlanTag tci)) (large : largest < value.toNat) :
    s.mutateTag sel value largest write = .next (s.raise .invalidFieldValue) := by
  rw [State.mutateTag, State.withTag_tag h entry, if_pos large]

theorem State.mutateTag_fits {tci : Half} (h : sel.toNat < s.nseg.toNat)
    (entry : s.seg[sel.toNat]? = some (.vlanTag tci)) (fits : value.toNat ≤ largest) :
    s.mutateTag sel value largest write = .next ((s.setTci sel (write tci value)).answer 0 []) := by
  rw [State.mutateTag, State.withTag_tag h entry, if_neg (Nat.not_lt.mpr fits)]

end

/-- The fields of the TCI that a mutator is not for are the same before and after (43_vlan.md R180). -/
def KeepsOtherFields (i : Instr) (sel : Sel) (old new : Half) : Prop :=
  ((∀ value, i ≠ .setpcp sel value) → tciPcp new = tciPcp old) ∧
  ((∀ value, i ≠ .setdei sel value) → tciDei new = tciDei old) ∧
  ((∀ value, i ≠ .setvid sel value) → tciVid new = tciVid old)

theorem KeepsOtherFields.refl (i : Instr) (sel : Sel) (tci : Half) : KeepsOtherFields i sel tci tci :=
  ⟨fun _ => rfl, fun _ => rfl, fun _ => rfl⟩

theorem keepsOtherFields_setpcp (sel : Sel) (old : Half) {value : Half} (fits : value.toNat ≤ 7) :
    KeepsOtherFields (.setpcp sel value) sel old (tciSetPcp old value) := by
  obtain ⟨p, -, rfl⟩ := exists_setWidth_eq (n := 3) (Nat.lt_succ_of_le fits)
  rw [tciSetPcp_eq_tciPack]
  exact ⟨fun other => absurd rfl (other _), fun _ => tciDei_tciPack _ _ _, fun _ => tciVid_tciPack _ _ _⟩

theorem keepsOtherFields_setdei (sel : Sel) (old : Half) {value : Half} (fits : value.toNat ≤ 1) :
    KeepsOtherFields (.setdei sel value) sel old (tciSetDei old value) := by
  obtain ⟨d, -, rfl⟩ := exists_setWidth_eq (n := 1) (Nat.lt_succ_of_le fits)
  rw [tciSetDei_eq_tciPack]
  exact ⟨fun _ => tciPcp_tciPack _ _ _, fun other => absurd rfl (other _), fun _ => tciVid_tciPack _ _ _⟩

theorem keepsOtherFields_setvid (sel : Sel) (old : Half) {value : Half} (fits : value.toNat ≤ 4095) :
    KeepsOtherFields (.setvid sel value) sel old (tciSetVid old value) := by
  obtain ⟨v, -, rfl⟩ := exists_setWidth_eq (n := 12) (Nat.lt_succ_of_le fits)
  rw [tciSetVid_eq_tciPack]
  exact ⟨fun _ => tciPcp_tciPack _ _ _, fun _ => tciDei_tciPack _ _ _, fun other => absurd rfl (other _)⟩

/-- The table after a mutator: every entry but the one it names is the same, and that one keeps the fields the mutator
is not for (43_vlan.md R180). -/
def TableKept (i : Instr) (sel : Sel) (before after : List Segment) : Prop :=
  (∀ j : Nat, j ≠ sel.toNat → after[j]? = before[j]?) ∧
  (∀ old : Half, before[sel.toNat]? = some (.vlanTag old) →
    ∃ new : Half, after[sel.toNat]? = some (.vlanTag new) ∧ KeepsOtherFields i sel old new)

theorem TableKept.refl (i : Instr) (sel : Sel) (table : List Segment) : TableKept i sel table table :=
  ⟨fun _ _ => rfl, fun old entry => ⟨old, entry, .refl i sel old⟩⟩

/-- Writing one tag keeps the table when the new TCI keeps the other fields of the old one. -/
theorem tableKept_set {i : Instr} {sel : Sel} {table : List Segment} {old new : Half}
    (entry : table[sel.toNat]? = some (.vlanTag old)) (fields : KeepsOtherFields i sel old new) :
    TableKept i sel table (table.set sel.toNat (.vlanTag new)) := by
  obtain ⟨inside, -⟩ := List.getElem?_eq_some_iff.mp entry
  refine ⟨fun j other => List.getElem?_set_ne other.symm, fun old' entry' => ⟨new, List.getElem?_set_self inside, ?_⟩⟩
  obtain rfl : old = old' := Segment.vlanTag.inj (Option.some.inj (entry.symm.trans entry'))
  exact fields

/-- A mutator that answers writes the table and the response only, and keeps the table but for its own field; `write`
is its write of the field. -/
theorem State.mutateTag_frame {i : Instr} {s t : State} {sel : Sel} {value : Half} {largest : Nat}
    {write : Half → Half → Half}
    (fields : ∀ old, value.toNat ≤ largest → KeepsOtherFields i sel old (write old value))
    (h : s.mutateTag sel value largest write = .next t) :
    ∃ table response, t = { s with seg := table, response := response } ∧ TableKept i sel s.seg table := by
  obtain ⟨_, _, absent⟩ | ⟨e, _, raised⟩ | ⟨old, _, entry, fits, written⟩ :=
    s.mutateTag_cases sel value largest write
  · cases absent.symm.trans h
  · obtain rfl := Host.Outcome.next.inj (raised.symm.trans h)
    exact ⟨_, _, rfl, .refl i sel s.seg⟩
  · obtain rfl := Host.Outcome.next.inj (written.symm.trans h)
    exact ⟨_, _, rfl, tableKept_set entry (fields old fits)⟩

theorem exec_mutator_frame {i : Instr} {s t : State} {sel : Sel} (which : mutates i = some sel)
    (h : exec i s = .next t) :
    ∃ table response, t = { s with seg := table, response := response } ∧ TableKept i sel s.seg table := by
  cases i with
  | setpcp sel' value =>
    obtain rfl := Option.some.inj which
    exact State.mutateTag_frame (fun old fits => keepsOtherFields_setpcp _ old fits) h
  | setdei sel' value =>
    obtain rfl := Option.some.inj which
    exact State.mutateTag_frame (fun old fits => keepsOtherFields_setdei _ old fits) h
  | setvid sel' value =>
    obtain rfl := Option.some.inj which
    exact State.mutateTag_frame (fun old fits => keepsOtherFields_setvid _ old fits) h
  | _ => cases which

/-! ### What reads BUF and LEN only (41_frame.md R137, R138, R142, R134) -/

section
variable {s t u : State}

/-- A command behind the read of the checksum field answers the same in a state with the same BUF and LEN. -/
theorem State.withChecksumField_response {result : Word → Word} (buf : t.buf = s.buf) (len : t.len = s.len)
    (h : s.withChecksumField (fun field => .next (s.answer (result field) [])) = .next u) :
    ∃ v, t.withChecksumField (fun field => .next (t.answer (result field) [])) = .next v ∧
      v.response = u.response := by
  obtain ⟨short, e⟩ | ⟨long, bound, e⟩ | ⟨_, e⟩ :=
    s.withChecksumField_cases fun field => .next (s.answer (result field) [])
  · obtain rfl := Host.Outcome.next.inj (e.symm.trans h)
    exact ⟨_, State.withChecksumField_short (len ▸ short), rfl⟩
  · obtain rfl := Host.Outcome.next.inj (e.symm.trans h)
    refine ⟨_, State.withChecksumField_read (len ▸ long) (len ▸ bound), ?_⟩
    rw [State.answer_response, State.answer_response, buf, len]
  · cases e.symm.trans h

/-- A command that answers bytes of BUF answers the same in a state with the same BUF. -/
theorem State.withBytes_response {off n : Nat} {result : Word} (buf : t.buf = s.buf)
    (h : s.withBytes off n (fun bytes => .next (s.answer result bytes)) = .next u) :
    ∃ v, t.withBytes off n (fun bytes => .next (t.answer result bytes)) = .next v ∧ v.response = u.response := by
  obtain ⟨inside, e⟩ | ⟨_, e⟩ := s.withBytes_cases off n fun bytes => .next (s.answer result bytes)
  · obtain rfl := Host.Outcome.next.inj (e.symm.trans h)
    refine ⟨_, State.withBytes_inside inside, ?_⟩
    rw [State.answer_response, State.answer_response, buf]
  · cases e.symm.trans h

theorem exec_validate (s : State) :
    exec .validate s = s.withChecksumField fun field =>
      .next (s.answer (truthWord (crc32 (s.buf.slice 0 (s.len.toNat - 4)) == field)) []) := rfl

theorem exec_getbuf (s : State) :
    exec .getbuf s = s.withBytes 0 s.len.toNat fun bytes => .next (s.answer (s.len.setWidth 32) bytes) := rfl

theorem exec_validate_response (buf : t.buf = s.buf) (len : t.len = s.len) (h : exec .validate s = .next u) :
    ∃ v, exec .validate t = .next v ∧ v.response = u.response := by
  rw [exec_validate] at h ⊢
  rw [buf, len]
  exact State.withChecksumField_response buf len h

theorem exec_fcs_response (buf : t.buf = s.buf) (len : t.len = s.len) (h : exec .fcs s = .next u) :
    ∃ v, exec .fcs t = .next v ∧ v.response = u.response :=
  State.withChecksumField_response (result := id) buf len h

theorem exec_getbuf_response (buf : t.buf = s.buf) (len : t.len = s.len) (h : exec .getbuf s = .next u) :
    ∃ v, exec .getbuf t = .next v ∧ v.response = u.response := by
  rw [exec_getbuf] at h ⊢
  rw [len]
  exact State.withBytes_response buf h

theorem exec_reader_response {reader : Instr} (which : reader ∈ [Instr.validate, .fcs, .getbuf])
    (buf : t.buf = s.buf) (len : t.len = s.len) (h : exec reader s = .next u) :
    ∃ v, exec reader t = .next v ∧ v.response = u.response := by
  simp only [List.mem_cons, List.not_mem_nil, or_false] at which
  obtain rfl | rfl | rfl := which
  · exact exec_validate_response buf len h
  · exact exec_fcs_response buf len h
  · exact exec_getbuf_response buf len h

end

theorem State.parseSegments_seg (s : State) :
    s.parseSegments.seg = (parseFrame s.buf s.len.toNat).getD s.seg := by
  obtain ⟨segs, parsed, e⟩ | ⟨parsed, e⟩ := s.parseSegments_cases
  · rw [e, parsed, State.answer_seg, State.setSegments_seg, Option.getD_some]
  · rw [e, parsed, State.raise_seg, Option.getD_none]

theorem State.parseSegments_nseg (s : State) :
    s.parseSegments.nseg =
      ((parseFrame s.buf s.len.toNat).map fun segs => BitVec.ofNat 9 segs.length).getD s.nseg := by
  obtain ⟨segs, parsed, e⟩ | ⟨parsed, e⟩ := s.parseSegments_cases
  · rw [e, parsed, State.answer_nseg, State.setSegments_nseg, Option.map_some, Option.getD_some]
  · rw [e, parsed, State.raise_nseg, Option.map_none, Option.getD_none]

/-- SEG after a LOAD that fits is a function of the frame alone. -/
theorem State.loaded_seg (s : State) (data : List Byte) :
    (s.copyFrame data).extractHeader.parseSegments.seg =
      (parseFrame (Memory.fill data) (BitVec.ofNat 11 data.length).toNat).getD [] := by
  rw [State.parseSegments_seg, State.extractHeader_buf, State.extractHeader_len, State.extractHeader_seg,
    State.copyFrame_buf, State.copyFrame_len, State.copyFrame_seg]

/-- NSEG after a LOAD that fits is a function of the frame alone. -/
theorem State.loaded_nseg (s : State) (data : List Byte) :
    (s.copyFrame data).extractHeader.parseSegments.nseg =
      ((parseFrame (Memory.fill data) (BitVec.ofNat 11 data.length).toNat).map
        fun segs => BitVec.ofNat 9 segs.length).getD 0 := by
  rw [State.parseSegments_nseg, State.extractHeader_buf, State.extractHeader_len, State.extractHeader_nseg,
    State.copyFrame_buf, State.copyFrame_len, State.copyFrame_nseg]

/-- A LOAD that fits leaves the same segments from any two states (43_vlan.md R180, 41_frame.md R136). -/
theorem exec_load_segments (s t : State) {data : List Byte} (fits : data.length ≤ 1518) :
    ∃ v u, exec (.load data) t = .next v ∧ exec (.load data) s = .next u ∧ v.seg = u.seg ∧ v.nseg = u.nseg :=
  ⟨_, _, exec_load_fits t fits, exec_load_fits s fits, by rw [State.loaded_seg, State.loaded_seg],
    by rw [State.loaded_nseg, State.loaded_nseg]⟩

end Machine

/-! ### The statements -/

open Machine

/-- Settles O36: a mutator writes the table and the response only, so the elements are kept by definition, the readers
see the same BUF and LEN, and LOAD sees no state at all. -/
theorem mutatorsTouchOneFieldOnly : Obligations.MutatorsTouchOneFieldOnly := by
  intro i sel s t which h
  obtain ⟨table, response, rfl, others, named⟩ := exec_mutator_frame which h
  exact ⟨fun _ => rfl, rfl, rfl, rfl, rfl, rfl, rfl, rfl, others, named,
    fun _ _ reader answered => exec_reader_response (s := s) reader rfl rfl answered,
    fun _ fits => exec_load_segments s _ fits⟩

/-- Settles O32: the five words are of format S; the errors are the selector check's, which all five share; the values
are the fields of the TCI, zero-extended. -/
theorem vlanAccessorsReadTheTag : Obligations.VlanAccessorsReadTheTag := by
  refine ⟨fun sel => ⟨?_, ?_, ?_, ?_, ?_⟩, fun i sel s which => ?_, fun sel t s inside entry => ⟨?_, ?_, ?_, ?_, ?_⟩⟩
  · exact decodeCommand_selectorWord (op := 0x18) (by decide) rfl rfl
  · exact decodeCommand_selectorWord (op := 0x19) (by decide) rfl rfl
  · exact decodeCommand_selectorWord (op := 0x1A) (by decide) rfl rfl
  · exact decodeCommand_selectorWord (op := 0x1B) (by decide) rfl rfl
  · exact decodeCommand_selectorWord (op := 0x1C) (by decide) rfl rfl
  · obtain ⟨k, check⟩ := exec_accessor which s
    rw [check]
    exact ⟨fun beyond => State.withTag_badIndex beyond,
      fun _ _ _ inside entry => State.withTag_generic inside entry⟩
  · rw [exec_tpid, State.withTag_tag inside entry]
    rfl
  · rw [exec_tci, State.withTag_tag inside entry, BitVec.ofNat_toNat, State.answer]
  · rw [exec_pcp, State.withTag_tag inside entry, ← toNat_tciPcp, BitVec.ofNat_toNat, State.answer]
  · rw [exec_dei, State.withTag_tag inside entry, ← toNat_tciDei, BitVec.ofNat_toNat, State.answer]
  · rw [exec_vid, State.withTag_tag inside entry, ← toNat_tciVid, BitVec.ofNat_toNat, State.answer]

/-- Settles O33: the checks are every mutator's; the new TCI is the value packed over bits 12:0 of the old one. -/
theorem setpcpWritesThePriority : Obligations.SetpcpWritesThePriority := by
  refine ⟨fun sel value => decodeCommand_valueWord (op := 0x1D) (by decide) rfl rfl,
    fun sel value s beyond => ?_, fun sel value ty doff dlen s inside entry => ?_,
    fun sel value t s inside entry large => ?_, fun sel value t s inside entry fits => ?_⟩
  · rw [exec_setpcp, State.mutateTag_badIndex beyond, State.raise]
  · rw [exec_setpcp, State.mutateTag_generic inside entry, State.raise]
  · rw [exec_setpcp, State.mutateTag_large inside entry large, State.raise]
  · rw [exec_setpcp, State.mutateTag_fits inside entry fits, tciSetPcp_eq_ofNat t fits, State.answer, State.setTci]

/-- Settles O34: the checks are every mutator's; the new TCI is the old one with bit 12 the value. -/
theorem setdeiWritesTheDropBit : Obligations.SetdeiWritesTheDropBit := by
  refine ⟨fun sel value => decodeCommand_valueWord (op := 0x1E) (by decide) rfl rfl,
    fun sel value s beyond => ?_, fun sel value ty doff dlen s inside entry => ?_,
    fun sel value t s inside entry large => ?_, fun sel value t s inside entry fits => ?_⟩
  · rw [exec_setdei, State.mutateTag_badIndex beyond, State.raise]
  · rw [exec_setdei, State.mutateTag_generic inside entry, State.raise]
  · rw [exec_setdei, State.mutateTag_large inside entry large, State.raise]
  · rw [exec_setdei, State.mutateTag_fits inside entry fits, tciSetDei_eq_ofNat t fits, State.answer, State.setTci]

/-- Settles O35: the checks are every mutator's; the new TCI is bits 15:12 of the old one over the value. -/
theorem setvidWritesTheIdentifier : Obligations.SetvidWritesTheIdentifier := by
  refine ⟨fun sel value => decodeCommand_valueWord (op := 0x1F) (by decide) rfl rfl,
    fun sel value s beyond => ?_, fun sel value ty doff dlen s inside entry => ?_,
    fun sel value t s inside entry large => ?_, fun sel value t s inside entry fits => ?_⟩
  · rw [exec_setvid, State.mutateTag_badIndex beyond, State.raise]
  · rw [exec_setvid, State.mutateTag_generic inside entry, State.raise]
  · rw [exec_setvid, State.mutateTag_large inside entry large, State.raise]
  · rw [exec_setvid, State.mutateTag_fits inside entry fits, tciSetVid_eq_ofNat t fits, State.answer, State.setTci]

end Sys2Proof
end

section
/-! The errors BadIndex and WrongKind (60_exceptions.md R195, R196): which check stands in front of each command with a
selector. -/

namespace Sys2Proof

namespace Machine

/-- Every command with a selector is a continuation behind the selector check (42_segment.md R160, 43_vlan.md R171). -/
theorem exec_selector {i : Instr} {sel : Sel} (h : i.selector = some sel) (s : State) :
    ∃ k, exec i s = s.withSegment sel k := by
  cases i with
  | segkind | getype | gdata | tpid | tci | pcp | dei | vid | setpcp | setdei | setvid =>
    obtain rfl := Option.some.inj h
    exact ⟨_, rfl⟩
  | _ => cases h

/-- GETYPE and GDATA are reads of one Generic entry behind the same selector check (42_segment.md R162, R163). -/
theorem exec_genericReader {i : Instr} {sel : Sel} (h : i ∈ [Instr.getype sel, .gdata sel]) (s : State) :
    ∃ k, exec i s = s.withGeneric sel k := by
  simp only [List.mem_cons, List.not_mem_nil, or_false] at h
  obtain rfl | rfl := h
  · exact ⟨_, rfl⟩
  · exact ⟨_, rfl⟩

/-- Every mutator is the checked write of one field, with its own bound and its own write (43_vlan.md R177 to R179). -/
theorem exec_mutator {i : Instr} {sel : Sel} {value : Half}
    (h : i ∈ [Instr.setpcp sel value, .setdei sel value, .setvid sel value]) (s : State) :
    ∃ largest write, exec i s = s.mutateTag sel value largest write := by
  simp only [List.mem_cons, List.not_mem_nil, or_false] at h
  obtain rfl | rfl | rfl := h
  · exact ⟨_, _, exec_setpcp sel value s⟩
  · exact ⟨_, _, exec_setdei sel value s⟩
  · exact ⟨_, _, exec_setvid sel value s⟩

end Machine

/-! ### The statements -/

open Machine

/-- Settles O26: the selector check, which all eleven commands share, answers before the command itself. -/
theorem selectorBeyondCountIsBadIndex : Obligations.SelectorBeyondCountIsBadIndex := by
  intro i sel s selects beyond
  obtain ⟨k, check⟩ := exec_selector selects s
  rw [check, State.withSegment_badIndex beyond, State.raise]

/-- Settles O27: the kind check stands behind the index check and in front of everything else a command does, the range
check of a mutator's value among it. -/
theorem wrongVariantIsWrongKind : Obligations.WrongVariantIsWrongKind := by
  refine ⟨fun i sel tci s reader inside entry => ?_, fun i sel value ty doff dlen s which inside entry => ?_⟩
  · obtain ⟨k, check⟩ := exec_genericReader reader s
    rw [check, State.withGeneric_tag inside entry, State.raise]
  · obtain accessor | mutator :=
      (List.mem_append (s := [Instr.tpid sel, .tci sel, .pcp sel, .dei sel, .vid sel])).mp which
    · obtain ⟨k, check⟩ := exec_accessor accessor s
      rw [check, State.withTag_generic inside entry, State.raise]
    · obtain ⟨largest, write, check⟩ := exec_mutator mutator s
      rw [check, State.mutateTag_generic inside entry, State.raise]

end Sys2Proof
end

section
/-! The error TruncatedSegment (60_exceptions.md R193): what a filled buffer reads where a field of the frame begins,
the segment loop over any number of whole tags, and what LOAD leaves when the loop then fails. -/

namespace Sys2Proof

namespace Machine

variable {data back : List Byte} {off : Nat}

theorem tagsBytes_cons (tci : Half) (tcis : List Half) :
    tagsBytes (tci :: tcis) = halfBytes 0x8100#16 ++ (halfBytes tci ++ tagsBytes tcis) := List.append_assoc _ _ _

theorem length_tagsBytes (tcis : List Half) : (tagsBytes tcis).length = 4 * tcis.length := by
  induction tcis with
  | nil => rfl
  | cons tci tcis ih =>
    simp only [tagsBytes_cons, List.length_append, ih, List.length_cons, halfBytes, List.length_nil]
    omega

/-- A 16-bit field is its high byte in front of its low byte (20_memory.md R52). -/
theorem highByte_append_lowByte (h : Half) : h.extractLsb' 8 8 ++ h.extractLsb' 0 8 = h := by
  exact (BitVec.extractLsb'_append_extractLsb'_eq_extractLsb' rfl).trans BitVec.extractLsb'_eq_self

theorem drop_add_two_of_halfBytes {h : Half} (field : data.drop off = halfBytes h ++ back) :
    data.drop (off + 2) = back := by
  rw [← List.drop_drop, field]
  rfl

/-- A two-byte read of a filled buffer where a 16-bit field of the payload begins is that field. -/
theorem Memory.read2_fill {h : Half} (field : data.drop off = halfBytes h ++ back) :
    (Memory.fill data).read2 off = h := by
  have byte (k : Nat) : data.getD (off + k) 0 = (halfBytes h ++ back).getD k 0 := by
    rw [← field, List.getD_eq_getElem?_getD, List.getD_eq_getElem?_getD, List.getElem?_drop]
  rw [Memory.read2_eq, Memory.byteAt_fill, Memory.byteAt_fill, byte 1]
  exact (congrArg (· ++ _) (byte 0)).trans (highByte_append_lowByte h)

/-- The segment loop takes every whole tag at the cursor and goes on behind them (41_frame.md R134 (b)). -/
theorem parseLoop_tags (tcis : List Half) (rem : Nat) (segs : List Segment)
    (frame : data.drop off = tagsBytes tcis ++ back) :
    parseLoop (Memory.fill data) (rem + 4 * tcis.length) off segs =
      parseLoop (Memory.fill data) rem (off + 4 * tcis.length) (segs ++ tcis.map .vlanTag) := by
  induction tcis generalizing off segs with
  | nil => rw [List.map_nil, List.append_nil]; rfl
  | cons tci tcis ih =>
    rw [tagsBytes_cons, List.append_assoc, List.append_assoc] at frame
    have behindType := drop_add_two_of_halfBytes frame
    have behindTag : data.drop (off + 4) = tagsBytes tcis ++ back := drop_add_two_of_halfBytes behindType
    have remaining : rem + 4 * (tci :: tcis).length = rem + 4 * tcis.length + 4 := rfl
    have cursor : off + 4 * (tci :: tcis).length = off + 4 + 4 * tcis.length := by
      rw [List.length_cons]
      omega
    rw [remaining, parseLoop_tag (Memory.read2_fill frame), Memory.read2_fill behindType, ih _ behindTag, cursor,
      List.append_assoc]
    rfl

/-- What stands behind the whole tags of a truncated frame: one byte, or the TPID with fewer than two bytes behind it
(60_exceptions.md R193). -/
def CutSegment (tail : List Byte) : Prop :=
  tail.length = 1 ∨ ∃ more : List Byte, more.length ≤ 1 ∧ tail = [0x81, 0x00] ++ more

theorem parseLoop_cutSegment {tail : List Byte} (segs : List Segment) (cut : CutSegment tail)
    (frame : data.drop off = tail ++ back) : parseLoop (Memory.fill data) tail.length off segs = none := by
  obtain one | ⟨more, short, rfl⟩ := cut
  · rw [one, parseLoop_one]
  · have tpid : (Memory.fill data).read2 off = Config.tpidVlan := Memory.read2_fill (back := more ++ back) frame
    exact parseLoop_cut tpid (Nat.lt_succ_of_le short)

theorem parseFrame_truncated {header fcs tail : List Byte} {tcis : List Half} (twelve : header.length = 12)
    (four : fcs.length = 4) (cut : CutSegment tail) :
    parseFrame (Memory.fill (header ++ tagsBytes tcis ++ tail ++ fcs))
      (header ++ tagsBytes tcis ++ tail ++ fcs).length = none := by
  have remaining : (header ++ tagsBytes tcis ++ tail ++ fcs).length - 4 - 12 = tail.length + 4 * tcis.length := by
    simp only [List.length_append, length_tagsBytes]
    omega
  have behindHeader : (header ++ tagsBytes tcis ++ tail ++ fcs).drop 12 = tagsBytes tcis ++ (tail ++ fcs) := by
    rw [List.append_assoc, List.append_assoc, List.drop_left' twelve]
  have behindTags : (header ++ tagsBytes tcis ++ tail ++ fcs).drop (12 + 4 * tcis.length) = tail ++ fcs := by
    rw [← List.drop_drop, behindHeader, List.drop_left' (length_tagsBytes tcis)]
  rw [parseFrame, remaining, parseLoop_tags tcis _ _ behindHeader, parseLoop_cutSegment _ cut behindTags]

/-- A LOAD whose segment loop fails raises the error on the state with the new frame and header (41_frame.md R135). -/
theorem exec_load_truncated (s : State) (fits : data.length ≤ 1518)
    (failed : parseFrame (Memory.fill data) data.length = none) :
    exec (.load data) s = .next ((s.copyFrame data).extractHeader.raise .truncatedSegment) := by
  rw [exec_load_fits s fits, State.parseSegments_none]
  rw [State.extractHeader_buf, State.extractHeader_len, State.copyFrame_buf, State.copyFrame_len, len_ofNat fits,
    failed]

/-- The two addresses of a header are the first twelve bytes of the buffer it was read off (41_frame.md R133). -/
theorem Header.bytes_ofBuf (m : Memory) :
    (Header.ofBuf m).dst.bytes ++ (Header.ofBuf m).src.bytes = m.slice 0 12 := rfl

end Machine

/-! ### The statement -/

open Machine

/-- Settles O13: the loop takes the whole tags and fails behind them, so the error is raised on the state that the copy
and the header extraction left. -/
theorem loadTruncatedKeepsTheNewFrame : Obligations.LoadTruncatedKeepsTheNewFrame := by
  intro header fcs tail tcis s twelve four cut fits
  refine ⟨_, exec_load_truncated s fits (parseFrame_truncated twelve four cut), rfl, rfl, rfl, rfl,
    Memory.byteAt_fill _, len_ofNat fits, ?_, rfl⟩
  have inside : 12 ≤ (header ++ tagsBytes tcis ++ tail ++ fcs).length := by
    simp only [List.length_append]
    omega
  rw [State.raise_hdr, State.extractHeader_hdr, State.copyFrame_buf, Header.bytes_ofBuf, Memory.slice_fill _ _ inside,
    List.append_assoc, List.append_assoc, List.take_left' twelve]

end Sys2Proof
end

section
/-! The opcode map (30_encoding.md R81 to R87): decoding inverts encoding and the other way round, a word against the
rows of the opcode table, and a step on the bytes at the port. -/

namespace Sys2Proof

/-! ### Decoding what was encoded -/

theorem length_payload_of_wf {i : Instr} (h : i.wf = true) : i.payload.length = plen (encodeWord i) := by
  cases i with
  | crc32 data => exact Laws.PayloadLength.crc32 data h
  | crcupd data => exact Laws.PayloadLength.crcupd data h
  | load data => exact Laws.PayloadLength.load data h
  | _ => simp [Instr.payload, plen, encodeWord]

theorem decode_encode {i : Instr} (h : i.wf = true) (rest : List Byte) :
    decode (encode i ++ rest) = .command i rest := by
  have length := length_payload_of_wf h
  have whole : ¬ (i.payload ++ rest).length < plen (encodeWord i) := by
    rw [List.length_append, length]
    omega
  rw [encode, List.append_assoc, decode_wordBytes, if_neg whole, List.take_left' length, List.drop_left' length,
    decodeCommand_encodeWord]

/-- Settles O52: the payload is as long as the word announces, and the word decodes to the command. -/
theorem decodeInvertsEncode : Obligations.DecodeInvertsEncode := fun _ rest wf => decode_encode wf rest

/-! ### The rows of the opcode table (30_encoding.md R86) -/

/-- The fields that a format wants zero are zero (30_encoding.md R82). -/
def Format.Allows (w : Word) : Format → Prop
  | .n => selField w = 0 ∧ immField w = 0
  | .p => selField w = 0
  | .s => immField w = 0
  | .v => True

/-- The bits of a word that a row fixes: `op`, and the fields that its format wants zero. -/
def Format.mask : Format → Word
  | .n => mkWord (BitVec.allOnes 6) (BitVec.allOnes 10) (BitVec.allOnes 16)
  | .p => mkWord (BitVec.allOnes 6) (BitVec.allOnes 10) 0
  | .s => mkWord (BitVec.allOnes 6) 0 (BitVec.allOnes 16)
  | .v => mkWord (BitVec.allOnes 6) 0 0

theorem mkWord_and (op op' : BitVec 6) (sel sel' : Sel) (imm imm' : Half) :
    mkWord op sel imm &&& mkWord op' sel' imm' = mkWord (op &&& op') (sel &&& sel') (imm &&& imm') := by
  have upper : (op ++ sel) &&& (op' ++ sel') = (op &&& op') ++ (sel &&& sel') := BitVec.and_append
  exact BitVec.and_append.trans (congrArg (· ++ (imm &&& imm')) upper)

theorem mkWord_inj {op op' : BitVec 6} {sel sel' : Sel} {imm imm' : Half} :
    mkWord op sel imm = mkWord op' sel' imm' ↔ op = op' ∧ sel = sel' ∧ imm = imm' := by
  refine ⟨fun h => ⟨?_, ?_, ?_⟩, by rintro ⟨rfl, rfl, rfl⟩; rfl⟩
  · simpa using congrArg opField h
  · simpa using congrArg selField h
  · simpa using congrArg immField h

theorem mask_and_pattern_of_mem : ∀ row ∈ opcodeTable,
    row.mask = row.format.mask ∧ row.pattern = mkWord (opField row.pattern) 0 0 := by decide +kernel

theorem selects_iff {row : OpcodeRow} (mem : row ∈ opcodeTable) (w : Word) :
    row.selects w = true ↔ opField w = opField row.pattern ∧ row.format.Allows w := by
  obtain ⟨mask, pattern⟩ := mask_and_pattern_of_mem row mem
  rw [OpcodeRow.selects, beq_iff_eq, mask, pattern, opField_mkWord, ← mkWord_fields w]
  cases row.format <;>
    simp only [Format.mask, Format.Allows, mkWord_and, mkWord_inj, BitVec.and_allOnes, BitVec.ofNat_eq_ofNat,
      BitVec.and_zero, opField_mkWord, selField_mkWord, immField_mkWord, and_true, true_and]

theorem row_eq_of_op_eq : ∀ row ∈ opcodeTable, ∀ row' ∈ opcodeTable,
    opField row.pattern = opField row'.pattern → row = row' := by decide +kernel

/-- The values of `op` that R87 (a) lists. -/
def Unassigned (op : Nat) : Prop :=
  op ∈ [0x00, 0x05, 0x06, 0x07, 0x0F, 0x13, 0x14, 0x15, 0x16, 0x17] ∨ 0x20 ≤ op

theorem op_of_row_or_unassigned (op : BitVec 6) :
    (∃ row ∈ opcodeTable, op = opField row.pattern) ∨ Unassigned op.toNat := by
  revert op
  unfold Unassigned
  decide +kernel

theorem decodeCommand_unassigned {w : Word} (h : Unassigned (opField w).toNat) (payload : List Byte) :
    decodeCommand w payload = .illegal .unassignedOp := by
  simp only [Unassigned, List.mem_cons, List.not_mem_nil, or_false] at h
  unfold decodeCommand
  split
  case h_23 => rfl
  all_goals omega

theorem plen_unassigned {w : Word} (h : Unassigned (opField w).toNat) : plen w = 0 := by
  simp only [Unassigned, List.mem_cons, List.not_mem_nil, or_false] at h
  unfold plen
  split
  case h_4 => rfl
  all_goals omega

/-! ### A word with the `op` of a row -/

/-- What a word does as the row of its `op` says: where it has the row's format it decodes to a command of the row's
mnemonic, whose encoding it is if the payload is as long as it announces; else it is illegal and announces nothing. -/
def FollowsRow (w : Word) (payload : List Byte) (format : Format) (mnemonic : String) : Prop :=
  (format.Allows w ∧ ∃ i, decodeCommand w payload = .command i ∧ i.mnemonic = mnemonic ∧
    (payload.length = plen w → i.wf = true ∧ encodeWord i = w ∧ i.payload = payload)) ∨
  (¬ format.Allows w ∧ decodeCommand w payload = .illegal .reservedNotZero ∧ plen w = 0)

section
variable {w : Word} {payload : List Byte} {i : Instr}

theorem followsRow_p
    (reads : decodeCommand w payload = formatP w i ∧ plen w = (if selField w = 0 then (immField w).toNat else 0) ∧
      encodeWord i = mkWord (opField w) 0 (BitVec.ofNat 16 payload.length))
    (wf : i.wf = decide (payload.length ≤ Config.payloadMax)) (whole : i.payload = payload) :
    FollowsRow w payload .p i.mnemonic := by
  obtain ⟨decodes, announced, word⟩ := reads
  by_cases allows : selField w = 0
  · refine .inl ⟨allows, i, decodes.trans (if_pos allows), rfl, fun length => ?_⟩
    rw [announced, if_pos allows] at length
    refine ⟨?_, ?_, whole⟩
    · rw [wf, length]
      exact decide_eq_true (Nat.le_of_lt_succ (immField w).isLt)
    · rw [word, length, BitVec.ofNat_toNat, BitVec.setWidth_eq, ← allows, mkWord_fields]
  · exact .inr ⟨allows, decodes.trans (if_neg allows), announced.trans (if_neg allows)⟩

theorem followsRow_n
    (reads : decodeCommand w payload = formatN w i ∧ plen w = 0 ∧ encodeWord i = mkWord (opField w) 0 0)
    (wf : i.wf = true) (empty : i.payload = []) : FollowsRow w payload .n i.mnemonic := by
  obtain ⟨decodes, none, word⟩ := reads
  by_cases allows : selField w = 0 ∧ immField w = 0
  · refine .inl ⟨allows, i, decodes.trans (if_pos allows), rfl, fun length => ⟨wf, ?_, ?_⟩⟩
    · rw [word, ← allows.1, ← allows.2, mkWord_fields]
    · rw [empty, List.eq_nil_of_length_eq_zero (length.trans none)]
  · exact .inr ⟨allows, decodes.trans (if_neg allows), none⟩

theorem followsRow_s
    (reads : decodeCommand w payload = formatS w i ∧ plen w = 0 ∧ encodeWord i = mkWord (opField w) (selField w) 0)
    (wf : i.wf = true) (empty : i.payload = []) : FollowsRow w payload .s i.mnemonic := by
  obtain ⟨decodes, none, word⟩ := reads
  by_cases allows : immField w = 0
  · refine .inl ⟨allows, i, decodes.trans (if_pos allows), rfl, fun length => ⟨wf, ?_, ?_⟩⟩
    · rw [word, ← allows, mkWord_fields]
    · rw [empty, List.eq_nil_of_length_eq_zero (length.trans none)]
  · exact .inr ⟨allows, decodes.trans (if_neg allows), none⟩

theorem followsRow_v
    (reads : decodeCommand w payload = .command i ∧ plen w = 0 ∧
      encodeWord i = mkWord (opField w) (selField w) (immField w))
    (wf : i.wf = true) (empty : i.payload = []) : FollowsRow w payload .v i.mnemonic := by
  obtain ⟨decodes, none, word⟩ := reads
  refine .inl ⟨trivial, i, decodes, rfl, fun length => ⟨wf, word.trans (mkWord_fields w), ?_⟩⟩
  rw [empty, List.eq_nil_of_length_eq_zero (length.trans none)]

end

theorem followsRow_of_op {row : OpcodeRow} {w : Word} (mem : row ∈ opcodeTable)
    (op : opField w = opField row.pattern) (payload : List Byte) : FollowsRow w payload row.format row.mnemonic := by
  simp only [opcodeTable, List.cons_append, List.nil_append, List.mem_cons, List.not_mem_nil, or_false] at mem
  obtain rfl | rfl | rfl | rfl | rfl | rfl | rfl | rfl | rfl | rfl | rfl | rfl | rfl | rfl | rfl | rfl | rfl | rfl |
    rfl | rfl | rfl | rfl := mem
  · exact followsRow_p (i := .crc32 payload) (by rw [decodeCommand, plen, op]; exact ⟨rfl, rfl, rfl⟩) rfl rfl
  · exact followsRow_n (i := .crcinit) (by rw [decodeCommand, plen, op]; exact ⟨rfl, rfl, rfl⟩) rfl rfl
  · exact followsRow_p (i := .crcupd payload) (by rw [decodeCommand, plen, op]; exact ⟨rfl, rfl, rfl⟩) rfl rfl
  · exact followsRow_n (i := .crcfin) (by rw [decodeCommand, plen, op]; exact ⟨rfl, rfl, rfl⟩) rfl rfl
  · exact followsRow_p (i := .load payload) (by rw [decodeCommand, plen, op]; exact ⟨rfl, rfl, rfl⟩) rfl rfl
  · exact followsRow_n (i := .validate) (by rw [decodeCommand, plen, op]; exact ⟨rfl, rfl, rfl⟩) rfl rfl
  · exact followsRow_n (i := .fcs) (by rw [decodeCommand, plen, op]; exact ⟨rfl, rfl, rfl⟩) rfl rfl
  · exact followsRow_n (i := .fstat) (by rw [decodeCommand, plen, op]; exact ⟨rfl, rfl, rfl⟩) rfl rfl
  · exact followsRow_n (i := .getdst) (by rw [decodeCommand, plen, op]; exact ⟨rfl, rfl, rfl⟩) rfl rfl
  · exact followsRow_n (i := .getsrc) (by rw [decodeCommand, plen, op]; exact ⟨rfl, rfl, rfl⟩) rfl rfl
  · exact followsRow_n (i := .getbuf) (by rw [decodeCommand, plen, op]; exact ⟨rfl, rfl, rfl⟩) rfl rfl
  · exact followsRow_s (i := .segkind _) (by rw [decodeCommand, plen, op]; exact ⟨rfl, rfl, rfl⟩) rfl rfl
  · exact followsRow_s (i := .getype _) (by rw [decodeCommand, plen, op]; exact ⟨rfl, rfl, rfl⟩) rfl rfl
  · exact followsRow_s (i := .gdata _) (by rw [decodeCommand, plen, op]; exact ⟨rfl, rfl, rfl⟩) rfl rfl
  · exact followsRow_s (i := .tpid _) (by rw [decodeCommand, plen, op]; exact ⟨rfl, rfl, rfl⟩) rfl rfl
  · exact followsRow_s (i := .tci _) (by rw [decodeCommand, plen, op]; exact ⟨rfl, rfl, rfl⟩) rfl rfl
  · exact followsRow_s (i := .pcp _) (by rw [decodeCommand, plen, op]; exact ⟨rfl, rfl, rfl⟩) rfl rfl
  · exact followsRow_s (i := .dei _) (by rw [decodeCommand, plen, op]; exact ⟨rfl, rfl, rfl⟩) rfl rfl
  · exact followsRow_s (i := .vid _) (by rw [decodeCommand, plen, op]; exact ⟨rfl, rfl, rfl⟩) rfl rfl
  · exact followsRow_v (i := .setpcp _ _) (by rw [decodeCommand, plen, op]; exact ⟨rfl, rfl, rfl⟩) rfl rfl
  · exact followsRow_v (i := .setdei _ _) (by rw [decodeCommand, plen, op]; exact ⟨rfl, rfl, rfl⟩) rfl rfl
  · exact followsRow_v (i := .setvid _ _) (by rw [decodeCommand, plen, op]; exact ⟨rfl, rfl, rfl⟩) rfl rfl

/-! ### Every word, against the table -/

/-- What a word that selects a row decodes to (30_encoding.md R86). -/
theorem decodeCommand_of_selects {row : OpcodeRow} {w : Word} (mem : row ∈ opcodeTable) (sel : row.selects w = true)
    (payload : List Byte) :
    ∃ i, decodeCommand w payload = .command i ∧ i.mnemonic = row.mnemonic ∧
      (payload.length = plen w → i.wf = true ∧ encodeWord i = w ∧ i.payload = payload) := by
  obtain ⟨op, allows⟩ := (selects_iff mem w).mp sel
  obtain ⟨-, command⟩ | ⟨breaks, -, -⟩ := followsRow_of_op mem op payload
  · exact command
  · exact absurd allows breaks

/-- A word that selects no row is illegal and announces no payload (30_encoding.md R83, R87). -/
theorem illegal_of_selects_none {w : Word} (none : ∀ row ∈ opcodeTable, row.selects w = false)
    (payload : List Byte) : (∃ why, decodeCommand w payload = .illegal why) ∧ plen w = 0 := by
  obtain ⟨row, mem, op⟩ | unassigned := op_of_row_or_unassigned (opField w)
  · obtain ⟨allows, -⟩ | ⟨-, illegal, announced⟩ := followsRow_of_op mem op payload
    · exact absurd ((selects_iff mem w).mpr ⟨op, allows⟩) (Bool.eq_false_iff.mp (none row mem))
    · exact ⟨⟨_, illegal⟩, announced⟩
  · exact ⟨⟨_, decodeCommand_unassigned unassigned payload⟩, plen_unassigned unassigned⟩

/-- A word that decodes to a command selects a row. -/
theorem exists_selects_of_command {w : Word} {payload : List Byte} {i : Instr}
    (h : decodeCommand w payload = .command i) : ∃ row ∈ opcodeTable, row.selects w = true := by
  by_contra none
  push Not at none
  obtain ⟨⟨why, illegal⟩, -⟩ :=
    illegal_of_selects_none (fun row mem => Bool.eq_false_iff.mpr (none row mem)) payload
  cases illegal.symm.trans h

theorem decodeCommand_unassignedOp_iff (w : Word) (payload : List Byte) :
    decodeCommand w payload = .illegal .unassignedOp ↔ Unassigned (opField w).toNat := by
  refine ⟨fun illegal => ?_, fun unassigned => decodeCommand_unassigned unassigned payload⟩
  obtain ⟨row, mem, op⟩ | unassigned := op_of_row_or_unassigned (opField w)
  · obtain ⟨-, i, command, -⟩ | ⟨-, reserved, -⟩ := followsRow_of_op mem op payload
    · cases command.symm.trans illegal
    · cases reserved.symm.trans illegal
  · exact unassigned

/-- Settles O53: the word selects a row, and what it then decodes to has it as its encoding. -/
theorem encodeInvertsDecode : Obligations.EncodeInvertsDecode := by
  intro w payload i length decodes
  obtain ⟨row, mem, sel⟩ := exists_selects_of_command decodes
  obtain ⟨i', decodes', -, back⟩ := decodeCommand_of_selects mem sel payload
  obtain rfl : i' = i := Decision.command.inj (decodes'.symm.trans decodes)
  exact back length

/-- Settles O54: what a word decodes to is settled by the row it selects, and rows differ in their `op`. -/
theorem decoderFollowsTheOpcodeTable : Obligations.DecoderFollowsTheOpcodeTable := by
  refine ⟨fun w payload row mem sel => ?_, fun w payload i decodes => ?_, fun w row mem row' mem' sel sel' => ?_,
    decodeCommand_unassignedOp_iff⟩
  · obtain ⟨i, decodes, mnemonic, -⟩ := decodeCommand_of_selects mem sel payload
    exact ⟨i, decodes, mnemonic⟩
  · obtain ⟨row, mem, sel⟩ := exists_selects_of_command decodes
    obtain ⟨i', decodes', mnemonic, -⟩ := decodeCommand_of_selects mem sel payload
    obtain rfl : i' = i := Decision.command.inj (decodes'.symm.trans decodes)
    exact ⟨row, mem, sel, mnemonic.symm⟩
  · obtain ⟨op, -⟩ := (selects_iff mem w).mp sel
    obtain ⟨op', -⟩ := (selects_iff mem' w).mp sel'
    exact row_eq_of_op_eq row mem row' mem' (op.symm.trans op')

/-- Settles O59: by evaluation of the decoder on the five byte sequences. -/
theorem sampleWordsDecode : Obligations.SampleWordsDecode := by
  unfold Obligations.SampleWordsDecode
  decide +kernel

/-! ### The bytes at the port (00_scope.md R7, 70_reset_and_hazards.md R220, R227) -/

namespace Machine

variable {s : State}

theorem step_command {i : Instr} {rest : List HostEvent} (h : fetch s.input = .command i rest) :
    step s = exec i (s.withInput rest) := by
  rw [step, h]

theorem step_illegal {why : Reject} {rest : List HostEvent} (h : fetch s.input = .illegal why rest) :
    step s = .next ((s.withInput rest).raise .illegalCommand) := by
  rw [step, h]

theorem step_reset {rest : List HostEvent} (h : fetch s.input = .reset rest) :
    step s = .next (State.assertReset rest) := by
  rw [step, h]

theorem step_none (h : fetch s.input = .none) : step s = .next s := by
  rw [step, h]

theorem fetch_of_command {input : List HostEvent} {i : Instr} {bytes : List Byte}
    (h : decode (leadingBytes input) = .command i bytes) :
    fetch input = .command i (bytes.map .byte ++ afterBytes input) := by
  rw [fetch, h]

theorem fetch_of_illegal {input : List HostEvent} {why : Reject} {bytes : List Byte}
    (h : decode (leadingBytes input) = .illegal why bytes) :
    fetch input = .illegal why (bytes.map .byte ++ afterBytes input) := by
  rw [fetch, h]

/-- The bytes of a well-formed command at the port are fetched as that command. -/
theorem fetch_encode {i : Instr} (h : i.wf = true) (rest : List HostEvent) :
    fetch ((encode i).map .byte ++ rest) = .command i rest := by
  have decodes : decode (leadingBytes ((encode i).map .byte ++ rest)) = .command i (leadingBytes rest) := by
    rw [leadingBytes_bytes, decode_encode h]
  rw [fetch_of_command decodes, afterBytes_bytes, leading_append_after]

/-- A word that selects no row is fetched as illegal, with its four bytes only. -/
theorem fetch_selects_none {w : Word} (none : ∀ row ∈ opcodeTable, row.selects w = false) (rest : List HostEvent) :
    ∃ why, fetch ((wordBytes w).map .byte ++ rest) = .illegal why rest := by
  obtain ⟨⟨why, illegal⟩, announced⟩ := illegal_of_selects_none none []
  have decodes : decode (leadingBytes ((wordBytes w).map .byte ++ rest)) = .illegal why (leadingBytes rest) := by
    rw [leadingBytes_bytes, decode_wordBytes, announced, if_neg (Nat.not_lt_zero _), List.take_zero, illegal]
  exact ⟨why, by rw [fetch_of_illegal decodes, afterBytes_bytes, leading_append_after]⟩

/-- Bytes that are no command are waited behind (70_reset_and_hazards.md R227). -/
theorem fetch_incomplete {bytes : List Byte} (h : decode bytes = .incomplete) :
    fetch (bytes.map .byte) = .none := by
  have leading : leadingBytes (bytes.map .byte) = bytes := by
    have := leadingBytes_bytes bytes []
    rwa [List.append_nil, leadingBytes, List.append_nil] at this
  have after : afterBytes (bytes.map .byte) = [] := by
    have := afterBytes_bytes bytes []
    rwa [List.append_nil] at this
  rw [fetch, leading, h, after]

/-- Bytes that are no command are abandoned at a reset behind them (70_reset_and_hazards.md R220). -/
theorem fetch_incomplete_reset {bytes : List Byte} (h : decode bytes = .incomplete) (rest : List HostEvent) :
    fetch (bytes.map .byte ++ .reset :: rest) = .reset rest := by
  rw [fetch, leadingBytes_bytes, leadingBytes, List.append_nil, h, afterBytes_bytes, afterBytes]

theorem decode_short {bytes : List Byte} (h : bytes.length < 4) : decode bytes = .incomplete := by
  match bytes with
  | [] | [_] | [_, _] | [_, _, _] => rfl
  | _ :: _ :: _ :: _ :: rest =>
    simp only [List.length_cons] at h
    omega

end Machine

open Machine

/-- Settles O55: the word is fetched with its four bytes only, and raises the error. -/
theorem illegalWordIsAnsweredAndSkipped : Obligations.IllegalWordIsAnsweredAndSkipped := by
  intro w rest s none atPort
  obtain ⟨why, fetched⟩ := fetch_selects_none none rest
  obtain ⟨-, announced⟩ := illegal_of_selects_none none []
  exact ⟨announced, step_illegal (atPort ▸ fetched)⟩

/-- Settles O56: fetching leaves the port with what stands behind the command. -/
theorem stepRunsTheDecodedCommand : Obligations.StepRunsTheDecodedCommand :=
  ⟨fun _ rest _ wf atPort => step_command (atPort ▸ fetch_encode wf rest),
    fun _ _ _ decodes => step_command (fetch_of_command decodes)⟩

/-- Settles O57: bytes that are no command are no move of the host, alone or in front of a reset. -/
theorem partialCommandWaitsOrResets : Obligations.PartialCommandWaitsOrResets := by
  refine ⟨fun bytes short => decode_short short, fun w payload short => ?_, fun bytes s incomplete => ⟨?_, ?_⟩⟩
  · rw [decode_wordBytes, if_pos short]
  · exact fun atPort => step_none (atPort ▸ fetch_incomplete incomplete)
  · exact fun rest atPort => step_reset (atPort ▸ fetch_incomplete_reset incomplete rest)

end Sys2Proof
end

section
/-! What a command leaves alone and what it answers, over all commands (10_state.md R20, 60_exceptions.md R200,
70_reset_and_hazards.md R223): everything here is read off the five ways in which a command can leave a state. -/

namespace Sys2Proof

namespace Machine

variable {s t : State} {i : Instr}

/-! ### LOAD that fits, by the outcome of its parse -/

theorem exec_load_parsed (s : State) {data : List Byte} {segs : List Segment} (fits : data.length ≤ 1518)
    (parsed : parseFrame (Memory.fill data) data.length = some segs) :
    exec (.load data) s = .next (((s.copyFrame data).extractHeader.setSegments segs).answer 0 []) := by
  rw [exec_load_fits s fits, State.parseSegments_some]
  rw [State.extractHeader_buf, State.extractHeader_len, State.copyFrame_buf, State.copyFrame_len, len_ofNat fits,
    parsed]

/-- What a LOAD that fits leaves is its payload's: two states it is run on can differ afterwards in ACC and the port
only (41_frame.md R136). -/
theorem exec_load_congr (s s' : State) {data : List Byte} (fits : data.length ≤ 1518) :
    ∃ t, exec (.load data) s = .next t ∧
      exec (.load data) s' = .next { t with acc := s'.acc, input := s'.input } := by
  cases parsed : parseFrame (Memory.fill data) data.length with
  | none => exact ⟨_, exec_load_truncated s fits parsed, exec_load_truncated s' fits parsed⟩
  | some segs => exact ⟨_, exec_load_parsed s fits parsed, exec_load_parsed s' fits parsed⟩

/-- A LOAD that fits answers OK or TruncatedSegment (41_frame.md R135, R136). -/
theorem State.parseSegments_response (s : State) :
    s.parseSegments.response = some ⟨.ok, 0, []⟩ ∨ s.parseSegments.response = some ⟨.truncatedSegment, 0, []⟩ := by
  obtain ⟨segs, -, e⟩ | ⟨-, e⟩ := s.parseSegments_cases
  · exact .inl (by rw [e, State.answer_response])
  · exact .inr (by rw [e, State.raise_response])

/-! ### Frames -/

theorem readOnly_eq_false_of_mutates {sel : Sel} (h : mutates i = some sel) : readOnly i = false := by
  cases i with
  | setpcp | setdei | setvid => rfl
  | _ => cases h

theorem Leaves.acc_eq (h : Leaves i s t) (noInit : i ≠ .crcinit) (noUpd : ∀ data, i ≠ .crcupd data) :
    t.acc = s.acc := by
  cases h with
  | answers | raises | rewrites => rfl
  | accumulates acc which =>
    obtain init | ⟨data, upd⟩ := which
    · exact absurd init noInit
    · exact absurd upd (noUpd data)
  | loads data which fits => rw [State.parseSegments_acc, State.extractHeader_acc, State.copyFrame_acc]

theorem Leaves.input_eq (h : Leaves i s t) : t.input = s.input := by
  cases h with
  | answers | raises | accumulates | rewrites => rfl
  | loads data which fits => rw [State.parseSegments_input, State.extractHeader_input, State.copyFrame_input]

/-- A command other than LOAD writes at most the table, ACC and the response. -/
theorem Leaves.frame_eq (h : Leaves i s t) (noLoad : ∀ data, i ≠ .load data) :
    t = { s with seg := t.seg, acc := t.acc, response := t.response } := by
  cases h with
  | answers | raises | accumulates | rewrites => rfl
  | loads data which fits => exact absurd which (noLoad data)

/-- A command other than LOAD keeps the table but for the entry a mutator names. -/
theorem Leaves.seg_kept (h : Leaves i s t) (noLoad : ∀ data, i ≠ .load data) :
    t.seg.length = s.seg.length ∧
      ∀ j : Nat, (∀ sel, mutates i = some sel → sel.toNat ≠ j) → t.seg[j]? = s.seg[j]? := by
  cases h with
  | answers | raises | accumulates => exact ⟨rfl, fun _ _ => rfl⟩
  | rewrites sel old new which inside entry =>
    exact ⟨List.length_set, fun j other => List.getElem?_set_ne (other sel which)⟩
  | loads data which fits => exact absurd which (noLoad data)

theorem Leaves.readOnly_eq (h : Leaves i s t) (ro : readOnly i = true) : t = { s with response := t.response } := by
  cases h with
  | answers | raises => rfl
  | accumulates acc which => obtain rfl | ⟨data, rfl⟩ := which <;> cases ro
  | rewrites sel old new which => cases (readOnly_eq_false_of_mutates which).symm.trans ro
  | loads data which => cases which; cases ro

/-! ### Errors and responses -/

/-- An error is raised on the state the command ran on, or is LOAD's TruncatedSegment. -/
theorem Leaves.error_cases {r : Response} (h : Leaves i s t) (response : t.response = some r) (err : r.status ≠ .ok) :
    (t = s.raise r.status ∧ r = ⟨r.status, 0, []⟩) ∨
    (∃ data, i = .load data ∧ data.length ≤ 1518 ∧ r = ⟨.truncatedSegment, 0, []⟩) := by
  cases h with
  | answers | accumulates | rewrites =>
    cases response
    exact absurd rfl err
  | raises e =>
    cases response
    exact .inl ⟨rfl, rfl⟩
  | loads data which fits =>
    obtain ok | truncated := State.parseSegments_response (s.copyFrame data).extractHeader
    · cases ok.symm.trans response
      exact absurd rfl err
    · exact .inr ⟨data, which, fits, Option.some.inj (response.symm.trans truncated)⟩

theorem Leaves.response_form (h : Leaves i s t) :
    ∃ r, t.response = some r ∧ (r.status = .ok ∨ r.status ∈ raisable i) ∧
      (r.status ≠ .ok → r.result = 0 ∧ r.out = []) ∧ r.out.length ≤ 1518 := by
  cases h with
  | answers result out ro bound => exact ⟨_, rfl, .inl rfl, fun err => absurd rfl err, bound⟩
  | raises e err mem => exact ⟨_, rfl, .inr mem, fun _ => ⟨rfl, rfl⟩, Nat.zero_le _⟩
  | accumulates | rewrites => exact ⟨_, rfl, .inl rfl, fun err => absurd rfl err, Nat.zero_le _⟩
  | loads data which fits =>
    subst which
    obtain ok | truncated := State.parseSegments_response (s.copyFrame data).extractHeader
    · exact ⟨_, ok, .inl rfl, fun err => absurd rfl err, Nat.zero_le _⟩
    · exact ⟨_, truncated, .inr (by simp [raisable]), fun _ => ⟨rfl, rfl⟩, Nat.zero_le _⟩

/-! ### The port (10_state.md R30, R33) -/

/-- The state with other contents in the two fields of the model's port. -/
def State.atPort (s : State) (input : List HostEvent) (response : Option Response) : State :=
  { s with input := input, response := response }

/-- The second outcome answers what the first one answers, but for the pending input. -/
def Carries (input : List HostEvent) (o o' : Host.Outcome State Fault Refusal) : Prop :=
  ∀ t, o = .next t → o' = .next (t.withInput input)

section
variable {input : List HostEvent} {response : Option Response} {sel : Sel}

theorem carries_next (t : State) : Carries input (.next t) (.next (t.withInput input)) := by
  rintro _ ⟨⟩
  rfl

theorem carries_segment {k k' : Segment → Host.Outcome State Fault Refusal} (hk : ∀ e, Carries input (k e) (k' e)) :
    Carries input (s.withSegment sel k) ((s.atPort input response).withSegment sel k') := by
  intro t h
  obtain ⟨beyond, e⟩ | ⟨_, _, e⟩ | ⟨entry, inside, present, e⟩ := s.withSegment_cases sel k
  · cases e.symm.trans h
    exact State.withSegment_badIndex (s := s.atPort input response) beyond
  · cases e.symm.trans h
  · have answered := hk entry t (e.symm.trans h)
    exact (State.withSegment_entry (s := s.atPort input response) inside present).trans answered

theorem carries_generic {k k' : Half → BitVec 11 → BitVec 11 → Host.Outcome State Fault Refusal}
    (hk : ∀ ty doff dlen, Carries input (k ty doff dlen) (k' ty doff dlen)) :
    Carries input (s.withGeneric sel k) ((s.atPort input response).withGeneric sel k') := by
  refine carries_segment fun e => ?_
  cases e with
  | generic ty doff dlen => exact hk ty doff dlen
  | vlanTag tci => exact carries_next _

theorem carries_tag {k k' : Half → Host.Outcome State Fault Refusal} (hk : ∀ tci, Carries input (k tci) (k' tci)) :
    Carries input (s.withTag sel k) ((s.atPort input response).withTag sel k') := by
  refine carries_segment fun e => ?_
  cases e with
  | generic ty doff dlen => exact carries_next _
  | vlanTag tci => exact hk tci

theorem carries_mutate {value : Half} {largest : Nat} {write : Half → Half → Half} :
    Carries input (s.mutateTag sel value largest write)
      ((s.atPort input response).mutateTag sel value largest write) := by
  refine carries_tag fun tci => ?_
  split
  · exact carries_next _
  · exact carries_next _

theorem carries_bytes {off n : Nat} {k k' : List Byte → Host.Outcome State Fault Refusal}
    (hk : ∀ bytes, Carries input (k bytes) (k' bytes)) :
    Carries input (s.withBytes off n k) ((s.atPort input response).withBytes off n k') := by
  intro t h
  obtain ⟨inside, e⟩ | ⟨_, e⟩ := s.withBytes_cases off n k
  · exact (State.withBytes_inside (s := s.atPort input response) inside).trans (hk _ t (e.symm.trans h))
  · cases e.symm.trans h

theorem carries_checksumField {k k' : Word → Host.Outcome State Fault Refusal}
    (hk : ∀ w, Carries input (k w) (k' w)) :
    Carries input (s.withChecksumField k) ((s.atPort input response).withChecksumField k') := by
  intro t h
  obtain ⟨short, e⟩ | ⟨long, bound, e⟩ | ⟨_, e⟩ := s.withChecksumField_cases k
  · cases e.symm.trans h
    exact State.withChecksumField_short (s := s.atPort input response) short
  · have answered := hk _ t (e.symm.trans h)
    exact (State.withChecksumField_read (s := s.atPort input response) long bound).trans answered
  · cases e.symm.trans h

theorem carries_load {data : List Byte} :
    Carries input (exec (.load data) s) (exec (.load data) (s.atPort input response)) := by
  intro t h
  by_cases fits : data.length ≤ 1518
  · obtain ⟨t', first, second⟩ := exec_load_congr s (s.atPort input response) fits
    obtain rfl := Host.Outcome.next.inj (first.symm.trans h)
    have acc : t'.acc = s.acc := (exec_leaves h).acc_eq (by simp) (by simp)
    rw [second, State.withInput]
    exact congrArg (fun acc => Host.Outcome.next { t' with acc := acc, input := input }) acc.symm
  · have large := Nat.not_le.mp fits
    cases (execLoad_large s large).symm.trans h
    exact execLoad_large (s.atPort input response) large

/-- No command reads the pending input or the last response. -/
theorem exec_carries (i : Instr) (s : State) (input : List HostEvent) (response : Option Response) :
    Carries input (exec i s) (exec i (s.atPort input response)) := by
  cases i with
  | crc32 | crcinit | crcupd | crcfin | fstat | getdst | getsrc => exact carries_next _
  | load data => exact carries_load
  | validate | fcs => exact carries_checksumField fun _ => carries_next _
  | getbuf => exact carries_bytes fun _ => carries_next _
  | segkind sel => exact carries_segment fun _ => carries_next _
  | getype sel => exact carries_generic fun _ _ _ => carries_next _
  | gdata sel => exact carries_generic fun _ _ _ => carries_bytes fun _ => carries_next _
  | tpid | tci | pcp | dei | vid => exact carries_tag fun _ => carries_next _
  | setpcp | setdei | setvid => exact carries_mutate

end

/-- After a change of the last response alone a command answers and leaves the very same. -/
theorem exec_of_response {u : State} (h : exec i s = .next u) (response : Option Response) :
    exec i { s with response := response } = .next u := by
  have input : u.withInput s.input = u := congrArg u.withInput (exec_leaves h).input_eq.symm
  rw [← input]
  exact exec_carries i s s.input response u h

end Machine

/-! ### The statements -/

open Machine

/-- Settles O38: of the five ways to leave a state only `accumulates` writes ACC. -/
theorem onlyTheStreamWritesAcc : Obligations.OnlyTheStreamWritesAcc :=
  fun _ _ _ h noInit noUpd => (exec_leaves h).acc_eq noInit noUpd

/-- Settles O39: of the five ways to leave a state only `loads` writes the frame, and none writes the port. -/
theorem onlyLoadWritesTheFrame : Obligations.OnlyLoadWritesTheFrame := by
  refine fun i s t h => ⟨(exec_leaves h).input_eq, fun noLoad => ?_⟩
  rw [(exec_leaves h).frame_eq noLoad]
  exact ⟨fun _ => rfl, rfl, rfl, rfl, rfl, rfl⟩

/-- Settles O40: of the four ways to leave a state without a LOAD only `rewrites` writes the table, at one entry. -/
theorem onlyLoadAndMutatorsWriteSeg : Obligations.OnlyLoadAndMutatorsWriteSeg :=
  fun _ _ _ h noLoad => (exec_leaves h).seg_kept noLoad

/-- Settles O41: a read-only command changes the response alone, which no command reads. -/
theorem readOnlyCommandsCommute : Obligations.ReadOnlyCommandsCommute := by
  refine ⟨fun i s t ro h => (exec_leaves h).readOnly_eq ro, fun i j s t u ro first second => ?_⟩
  rw [(exec_leaves first).readOnly_eq ro]
  exact exec_of_response second _

/-- Settles O42: an error other than TruncatedSegment is raised on the state the command ran on. -/
theorem errorsLeaveTheState : Obligations.ErrorsLeaveTheState := by
  intro i s t r h response err
  obtain ⟨raised, form⟩ | ⟨data, -, -, rfl⟩ := (exec_leaves h).error_cases response err
  · refine ⟨congrArg Response.result form, congrArg Response.out form, fun _ => ?_⟩
    rw [raised, State.raise, form]
  · exact ⟨rfl, rfl, fun other => absurd rfl other⟩

/-- Settles O43: an error that left the state is answered again because no command reads the response, and LOAD's
TruncatedSegment because LOAD reads no state. -/
theorem errorsRepeat : Obligations.ErrorsRepeat := by
  intro i s t r h response err
  obtain ⟨raised, -⟩ | ⟨data, rfl, fits, -⟩ := (exec_leaves h).error_cases response err
  · refine ⟨t, ?_, response⟩
    conv_lhs => rw [raised]
    exact exec_of_response h _
  · obtain ⟨t', first, second⟩ := exec_load_congr s t fits
    obtain rfl := Host.Outcome.next.inj (first.symm.trans h)
    exact ⟨_, second, response⟩

/-- Settles O44: the response of each of the five ways to leave a state. -/
theorem responsesHaveTheirForm : Obligations.ResponsesHaveTheirForm :=
  ⟨fun _ _ _ h => (exec_leaves h).response_form, by decide⟩

/-- Settles O45: command by command, through the shared checks in front of it. -/
theorem commandsIgnoreThePort : Obligations.CommandsIgnoreThePort :=
  fun i s t input response h => exec_carries i s input response t h

end Sys2Proof
end

section
/-! The invariants (10_state.md R31): they hold at reset, every way to leave a state keeps them, and where they hold no
command stops the engine. At the end, the model's own: equal contents make equal buffers in canonical form. -/

namespace Sys2Proof

namespace Machine

variable {s t : State}

/-! ### The invariants are kept -/

theorem inv_reset : State.reset.Inv where
  canonical := Memory.wf_reset
  lenBound := Nat.zero_le _
  zeroBeyond := fun _ _ => rfl
  header := rfl
  unparsedEmpty := fun _ => rfl
  countBound := Nat.zero_le _
  tableLength := rfl
  entries := fun j e entry => by cases entry
  someLength := fun positive => absurd positive (Nat.lt_irrefl 0)

/-- The invariants do not speak of ACC or of the port. -/
theorem State.Inv.of_acc_port (h : s.Inv) (acc : Word) (input : List HostEvent) (response : Option Response) :
    { s with acc := acc, input := input, response := response }.Inv where
  canonical := h.canonical
  lenBound := h.lenBound
  zeroBeyond := h.zeroBeyond
  header := h.header
  unparsedEmpty := h.unparsedEmpty
  countBound := h.countBound
  tableLength := h.tableLength
  entries := h.entries
  someLength := h.someLength

theorem State.Inv.withInput (h : s.Inv) (input : List HostEvent) : (s.withInput input).Inv :=
  h.of_acc_port s.acc input s.response

theorem State.Inv.answer (h : s.Inv) (result : Word) (out : List Byte) : (s.answer result out).Inv :=
  h.of_acc_port s.acc s.input _

theorem State.Inv.raise (h : s.Inv) (e : Status) : (s.raise e).Inv := h.of_acc_port s.acc s.input _

theorem State.Inv.setAcc (h : s.Inv) (acc : Word) : (s.setAcc acc).Inv := h.of_acc_port acc s.input s.response

/-- What the invariants say of a tag does not depend on its TCI (43_vlan.md R180). -/
theorem State.Inv.setTci (h : s.Inv) {sel : Sel} {old : Half} (entry : s.seg[sel.toNat]? = some (.vlanTag old))
    (new : Half) : (s.setTci sel new).Inv where
  canonical := h.canonical
  lenBound := h.lenBound
  zeroBeyond := h.zeroBeyond
  header := h.header
  unparsedEmpty := h.unparsedEmpty
  countBound := h.countBound
  tableLength := List.length_set.trans h.tableLength
  entries := by
    intro j e at_j
    rw [State.setTci_seg] at at_j
    by_cases named : sel.toNat = j
    · subst named
      obtain ⟨inside, -⟩ := List.getElem?_eq_some_iff.mp entry
      rw [List.getElem?_set_self inside] at at_j
      obtain rfl := Option.some.inj at_j
      exact h.entries _ _ entry
    · rw [List.getElem?_set_ne named] at at_j
      exact h.entries j e at_j
  someLength := h.someLength

/-- A frame that fits, with its header and no segments, meets the invariants whatever stood there before. -/
theorem inv_loaded (s : State) {data : List Byte} (fits : data.length ≤ 1518) :
    (s.copyFrame data).extractHeader.Inv where
  canonical := Memory.wf_fill data fits
  lenBound := (len_ofNat fits).trans_le fits
  zeroBeyond := fun a beyond =>
    (Memory.byteAt_fill data a).trans (List.getD_eq_default _ _ ((len_ofNat fits).symm.trans_le beyond))
  header := rfl
  unparsedEmpty := fun _ => rfl
  countBound := Nat.zero_le _
  tableLength := rfl
  entries := fun j e entry => by cases entry
  someLength := fun positive => absurd positive (Nat.lt_irrefl 0)

/-- An entry read off the buffer at its place fits the frame (10_state.md R31 (vii), (viii)). -/
theorem Segment.fits_of_parsedEntry {j : Nat} {e : Segment} (bound : s.len.toNat ≤ 1518)
    (h : ParsedEntry s.buf (s.len.toNat - 4 - 12) 12 s.nseg.toNat j e) : e.fits s j := by
  cases e with
  | vlanTag tci =>
    obtain ⟨room, tpid, -⟩ := h
    refine ⟨?_, tpid⟩
    simp only [Config.hdrLen, Config.tagLen, Config.fcsLen]
    omega
  | generic ty doff dlen =>
    obtain ⟨last, rfl, ⟨n, rfl, whole⟩, type, other⟩ := h
    refine ⟨last, ?_, ?_, type, other⟩
    · simp only [BitVec.toNat_ofNat, Config.hdrLen, Config.typeLen]
      omega
    · simp only [BitVec.toNat_ofNat, Config.fcsLen]
      omega

/-- The table that a parse of the frame builds meets the invariants (41_frame.md R134, R136). -/
theorem State.Inv.setSegments (h : s.Inv) {segs : List Segment} (parsed : parseFrame s.buf s.len.toNat = some segs) :
    (s.setSegments segs).Inv := by
  have bound : s.len.toNat ≤ 1518 := h.lenBound
  obtain ⟨room, nonempty, entries⟩ := parseLoop_entries s.buf (s.len.toNat - 4 - 12) 12 segs parsed
  have count : (s.setSegments segs).nseg.toNat = segs.length := by
    rw [State.setSegments_nseg, BitVec.toNat_ofNat]
    omega
  refine ⟨h.canonical, h.lenBound, h.zeroBeyond, h.header, fun unparsed => ?_, ?_, count.symm, ?_, ?_⟩
  · cases unparsed
  · rw [count, Config.nsegMax]
    omega
  · exact fun j e entry => Segment.fits_of_parsedEntry bound (count ▸ entries j e entry)
  · rw [count, State.setSegments_len]
    omega

theorem State.Inv.parseSegments (h : s.Inv) : s.parseSegments.Inv := by
  obtain ⟨segs, parsed, e⟩ | ⟨-, e⟩ := s.parseSegments_cases
  · rw [e]
    exact (h.setSegments parsed).answer 0 []
  · rw [e]
    exact h.raise _

theorem Leaves.inv {i : Instr} (h : Leaves i s t) (inv : s.Inv) : t.Inv := by
  cases h with
  | answers result out => exact inv.answer result out
  | raises e => exact inv.raise e
  | accumulates acc => exact (inv.setAcc acc).answer 0 []
  | rewrites sel old new which inside entry => exact (inv.setTci entry new).answer 0 []
  | loads data which fits => exact (inv_loaded s fits).parseSegments

theorem step_inv (inv : s.Inv) (h : step s = .next t) : t.Inv := by
  obtain ⟨i, rest, -, ran⟩ | ⟨why, rest, -, rfl⟩ | ⟨rest, -, rfl⟩ | ⟨-, rfl⟩ := step_cases h
  · exact (exec_leaves ran).inv (inv.withInput rest)
  · exact (inv.withInput rest).raise _
  · exact inv_reset.withInput rest
  · exact inv

/-! ### The faults (assumption log 6 and 7) -/

/-- What stands behind a fault: a frame or an entry that points past BUF, or a table shorter than NSEG. -/
def FaultCause (s : State) (r : Fault) : Prop :=
  (r = .outsideBuffer ∧ (1518 < s.len.toNat ∨
    ∃ (j : Nat) (etherType : Half) (doff dlen : BitVec 11),
      s.seg[j]? = some (.generic etherType doff dlen) ∧ 1518 < doff.toNat + dlen.toNat)) ∨
  (r = .segmentAbsent ∧ s.seg.length < s.nseg.toNat)

/-- An outcome that is a next state, or a fault with its cause. -/
def StopsForCause (s : State) (o : Host.Outcome State Fault Refusal) : Prop :=
  (∃ t, o = .next t) ∨ ∃ r, o = .fault r ∧ FaultCause s r

section
variable {sel : Sel}

theorem stopsForCause_next (t : State) : StopsForCause s (.next t) := .inl ⟨t, rfl⟩

theorem stopsForCause_segment {k : Segment → Host.Outcome State Fault Refusal}
    (hk : ∀ e, s.seg[sel.toNat]? = some e → StopsForCause s (k e)) : StopsForCause s (s.withSegment sel k) := by
  obtain ⟨_, e⟩ | ⟨inside, absent, e⟩ | ⟨entry, _, present, e⟩ := s.withSegment_cases sel k
  · rw [e]
    exact stopsForCause_next _
  · have short := List.getElem?_eq_none_iff.mp absent
    exact .inr ⟨_, e, .inr ⟨rfl, short.trans_lt inside⟩⟩
  · rw [e]
    exact hk entry present

theorem stopsForCause_generic {k : Half → BitVec 11 → BitVec 11 → Host.Outcome State Fault Refusal}
    (hk : ∀ ty doff dlen, s.seg[sel.toNat]? = some (.generic ty doff dlen) → StopsForCause s (k ty doff dlen)) :
    StopsForCause s (s.withGeneric sel k) := by
  refine stopsForCause_segment fun e present => ?_
  cases e with
  | generic ty doff dlen => exact hk ty doff dlen present
  | vlanTag tci => exact stopsForCause_next _

theorem stopsForCause_tag {k : Half → Host.Outcome State Fault Refusal} (hk : ∀ tci, StopsForCause s (k tci)) :
    StopsForCause s (s.withTag sel k) := by
  refine stopsForCause_segment fun e present => ?_
  cases e with
  | generic ty doff dlen => exact stopsForCause_next _
  | vlanTag tci => exact hk tci

theorem stopsForCause_mutate {value : Half} {largest : Nat} {write : Half → Half → Half} :
    StopsForCause s (s.mutateTag sel value largest write) := by
  refine stopsForCause_tag fun tci => ?_
  split
  · exact stopsForCause_next _
  · exact stopsForCause_next _

theorem stopsForCause_checksumField {k : Word → Host.Outcome State Fault Refusal}
    (hk : ∀ w, StopsForCause s (k w)) : StopsForCause s (s.withChecksumField k) := by
  obtain ⟨_, e⟩ | ⟨_, _, e⟩ | ⟨long, e⟩ := s.withChecksumField_cases k
  · rw [e]
    exact stopsForCause_next _
  · rw [e]
    exact hk _
  · exact .inr ⟨_, e, .inl ⟨rfl, .inl long⟩⟩

theorem stopsForCause_getbuf : StopsForCause s (exec .getbuf s) := by
  rw [exec_getbuf]
  obtain ⟨_, e⟩ | ⟨outside, e⟩ :=
    s.withBytes_cases 0 s.len.toNat fun bytes => .next (s.answer (s.len.setWidth 32) bytes)
  · exact .inl ⟨_, e⟩
  · exact .inr ⟨_, e, .inl ⟨rfl, .inl (by rwa [Nat.zero_add] at outside)⟩⟩

theorem stopsForCause_gdata : StopsForCause s (exec (.gdata sel) s) := by
  refine stopsForCause_generic fun ty doff dlen present => ?_
  obtain ⟨_, e⟩ | ⟨outside, e⟩ :=
    s.withBytes_cases doff.toNat dlen.toNat fun bytes => .next (s.answer (dlen.setWidth 32) bytes)
  · exact .inl ⟨_, e⟩
  · exact .inr ⟨_, e, .inl ⟨rfl, .inr ⟨_, _, _, _, present, outside⟩⟩⟩

theorem exec_stopsForCause (i : Instr) (s : State) : StopsForCause s (exec i s) := by
  cases i with
  | crc32 | crcinit | crcupd | crcfin | fstat | getdst | getsrc => exact stopsForCause_next _
  | load data =>
    by_cases fits : data.length ≤ 1518
    · exact .inl ⟨_, exec_load_fits s fits⟩
    · exact .inl ⟨_, execLoad_large s (Nat.not_le.mp fits)⟩
  | validate | fcs => exact stopsForCause_checksumField fun _ => stopsForCause_next _
  | getbuf => exact stopsForCause_getbuf
  | segkind sel => exact stopsForCause_segment fun _ _ => stopsForCause_next _
  | getype sel => exact stopsForCause_generic fun _ _ _ _ => stopsForCause_next _
  | gdata sel => exact stopsForCause_gdata
  | tpid | tci | pcp | dei | vid => exact stopsForCause_tag fun _ => stopsForCause_next _
  | setpcp | setdei | setvid => exact stopsForCause_mutate

end

/-- The invariants leave no fault a cause: LEN and every entry lie inside BUF, and the table is NSEG long. -/
theorem State.Inv.no_faultCause (h : s.Inv) (r : Fault) : ¬ FaultCause s r := by
  have bound : s.len.toNat ≤ 1518 := h.lenBound
  rintro (⟨-, long | ⟨j, ty, doff, dlen, entry, outside⟩⟩ | ⟨-, short⟩)
  · omega
  · obtain ⟨-, -, whole, -⟩ := h.entries j _ entry
    omega
  · exact absurd h.tableLength (Nat.ne_of_lt short)

theorem State.Inv.exec_next (h : s.Inv) (i : Instr) : ∃ t, exec i s = .next t := by
  obtain next | ⟨r, -, cause⟩ := exec_stopsForCause i s
  · exact next
  · exact absurd cause (h.no_faultCause r)

theorem State.Inv.step_next (h : s.Inv) : ∃ t, step s = .next t := by
  cases fetched : fetch s.input with
  | command i rest =>
    rw [step_command fetched]
    exact (h.withInput rest).exec_next i
  | illegal why rest => exact ⟨_, step_illegal fetched⟩
  | reset rest => exact ⟨_, step_reset fetched⟩
  | none => exact ⟨s, step_none fetched⟩

/-! ### The canonical form of BUF (assumption log 5) -/

theorem Memory.wfFrom_cons {lo a : Nat} {b : Byte} {rest : Memory} (h : Memory.wfFrom lo ((a, b) :: rest) = true) :
    lo ≤ a ∧ b ≠ 0 ∧ Memory.wfFrom (a + 1) rest = true := by
  simp only [Memory.wfFrom, Bool.and_eq_true, decide_eq_true_eq] at h
  obtain ⟨⟨⟨low, -⟩, listed⟩, rest⟩ := h
  exact ⟨low, listed, rest⟩

theorem Memory.byteAt_eq_zero_of_lt {lo a : Nat} {m : Memory} (h : Memory.wfFrom lo m = true) (below : a < lo) :
    m.byteAt a = 0 := by
  induction m generalizing lo with
  | nil => rfl
  | cons cell rest ih =>
    obtain ⟨k, b⟩ := cell
    obtain ⟨low, -, tail⟩ := Memory.wfFrom_cons h
    rw [Memory.byteAt_cons, if_neg (by omega), ih tail (by omega)]

/-- The first offset listed is the first one that reads as not zero, so it is the same in memories that read alike. -/
theorem Memory.head_le_of_reads_alike {lo j k : Nat} {b c : Byte} {m n : Memory}
    (hm : Memory.wfFrom lo ((j, b) :: m) = true) (hn : Memory.wfFrom lo ((k, c) :: n) = true)
    (same : ∀ a, Memory.byteAt ((j, b) :: m) a = Memory.byteAt ((k, c) :: n) a) : j ≤ k := by
  obtain ⟨-, listed, -⟩ := Memory.wfFrom_cons hn
  obtain ⟨-, -, tail⟩ := Memory.wfFrom_cons hm
  by_contra before
  have zero : Memory.byteAt ((j, b) :: m) k = 0 := by
    rw [Memory.byteAt_cons, if_neg (by omega), Memory.byteAt_eq_zero_of_lt tail (by omega)]
  have byte : Memory.byteAt ((k, c) :: n) k = c := if_pos rfl
  exact listed (byte.symm.trans ((same k).symm.trans zero))

theorem Memory.exists_byteAt_ne_zero {lo k : Nat} {c : Byte} {n : Memory}
    (hn : Memory.wfFrom lo ((k, c) :: n) = true) : ∃ a, Memory.byteAt ((k, c) :: n) a ≠ 0 := by
  obtain ⟨-, listed, -⟩ := Memory.wfFrom_cons hn
  exact ⟨k, fun zero => listed ((if_pos rfl).symm.trans zero)⟩

theorem Memory.eq_of_reads_alike {lo : Nat} {m n : Memory} (hm : Memory.wfFrom lo m = true)
    (hn : Memory.wfFrom lo n = true) (same : ∀ a, m.byteAt a = n.byteAt a) : m = n := by
  induction m generalizing lo n with
  | nil =>
    cases n with
    | nil => rfl
    | cons cell n =>
      obtain ⟨a, listed⟩ := Memory.exists_byteAt_ne_zero hn
      exact absurd (same a).symm listed
  | cons cell m ih =>
    cases n with
    | nil =>
      obtain ⟨a, listed⟩ := Memory.exists_byteAt_ne_zero hm
      exact absurd (same a) listed
    | cons cell' n =>
      obtain ⟨j, b⟩ := cell
      obtain ⟨k, c⟩ := cell'
      obtain rfl : j = k := Nat.le_antisymm (Memory.head_le_of_reads_alike hm hn same)
        (Memory.head_le_of_reads_alike hn hm fun a => (same a).symm)
      obtain ⟨-, -, tail⟩ := Memory.wfFrom_cons hm
      obtain ⟨-, -, tail'⟩ := Memory.wfFrom_cons hn
      have byte : b = c := by simpa only [Memory.byteAt_cons, if_true] using same j
      have rest (a : Nat) : Memory.byteAt m a = Memory.byteAt n a := by
        by_cases here : j = a
        · subst here
          rw [Memory.byteAt_eq_zero_of_lt tail (Nat.lt_succ_self j),
            Memory.byteAt_eq_zero_of_lt tail' (Nat.lt_succ_self j)]
        · simpa only [Memory.byteAt_cons, if_neg here] using same a
      rw [byte, ih tail tail' rest]

end Machine

/-! ### The statements -/

open Machine

/-- Settles O46: no frame, no segments, zero everywhere. -/
theorem invariantsHoldAtReset : Obligations.InvariantsHoldAtReset := inv_reset

/-- Settles O47: a step is a command, an illegal word, a reset or nothing, and each way a command leaves a state keeps
the invariants; a LOAD builds them from the parse of its frame. -/
theorem stepKeepsTheInvariants : Obligations.StepKeepsTheInvariants := fun _ _ inv h => step_inv inv h

/-- Settles O48: a fault has a cause, and the invariants exclude each. -/
theorem stepAlwaysAnswers : Obligations.StepAlwaysAnswers := fun _ inv => inv.step_next

/-- Settles O49: command by command, through the shared checks in front of it. -/
theorem faultsNameTheirCause : Obligations.FaultsNameTheirCause := by
  refine ⟨fun i s r h => ?_, fun i s r h => ?_⟩
  · obtain ⟨t, next⟩ | ⟨r', fault, cause⟩ := exec_stopsForCause i s
    · cases next.symm.trans h
    · obtain rfl := Host.Outcome.fault.inj (fault.symm.trans h)
      exact cause
  · obtain ⟨t, next⟩ | ⟨r', fault, -⟩ := exec_stopsForCause i s
    · cases next.symm.trans h
    · cases fault.symm.trans h

/-- Settles O50: NSEG is 0 while PARSED is 0, so every selector is beyond the table. -/
theorem unparsedMeansBadIndex : Obligations.UnparsedMeansBadIndex := by
  intro i sel s inv unparsed selects
  have beyond : s.nseg.toNat ≤ sel.toNat := by
    rw [inv.unparsedEmpty unparsed]
    exact Nat.zero_le _
  exact selectorBeyondCountIsBadIndex i sel s selects beyond

/-- Settles O51: by induction on the two lists; their first cells are where the memories first read as not zero. -/
theorem canonicalMemoriesAreEqual : Obligations.CanonicalMemoriesAreEqual :=
  fun _ _ canonical canonical' same => Memory.eq_of_reads_alike canonical canonical' same

end Sys2Proof
end

section
/-! The laws of the checksum function (40_crc.md R116) and the streaming commands (R114, R115). The rounds are linear
over XOR, and rounds that meet only zero bits shift; both laws of the byte step follow. -/

namespace Sys2Proof

namespace Machine

/-! ### Rounds are linear over XOR -/

theorem xor_xor_xor_cancel (a b x : Word) : (a ^^^ x) ^^^ (b ^^^ x) = a ^^^ b := by
  rw [BitVec.xor_comm b x, ← BitVec.xor_assoc, BitVec.xor_assoc a x x, BitVec.xor_self, BitVec.xor_zero]

theorem crcRound_xor (a b : Word) : crcRound (a ^^^ b) = crcRound a ^^^ crcRound b := by
  unfold crcRound
  rw [BitVec.getLsbD_xor, BitVec.ushiftRight_xor_distrib]
  cases a.getLsbD 0 <;> cases b.getLsbD 0
  · rfl
  · exact BitVec.xor_assoc _ _ _
  · simp only [Bool.xor_false, if_true, Bool.false_eq_true, if_false]
    ac_rfl
  · exact (xor_xor_xor_cancel _ _ _).symm

theorem crcRounds_xor (n : Nat) (a b : Word) : crcRounds n (a ^^^ b) = crcRounds n a ^^^ crcRounds n b := by
  induction n generalizing a b with
  | zero => rfl
  | succ n ih => rw [crcRounds, crcRound_xor, ih, crcRounds, crcRounds]

theorem crcRounds_add (m n : Nat) (a : Word) : crcRounds (m + n) a = crcRounds n (crcRounds m a) := by
  rw [crcRounds_eq_iterate, crcRounds_eq_iterate, crcRounds_eq_iterate, Nat.add_comm, Function.iterate_add_apply]

/-- Rounds that find their low bit clear only shift. -/
theorem crcRounds_eq_shift {n : Nat} {a : Word} (clear : ∀ k < n, a.getLsbD k = false) :
    crcRounds n a = a >>> n := by
  induction n generalizing a with
  | zero => rfl
  | succ n ih =>
    have first : crcRound a = a >>> 1 := by rw [crcRound, clear 0 (Nat.succ_pos n)]; rfl
    have others (k : Nat) (h : k < n) : (a >>> 1).getLsbD k = false := by
      rw [BitVec.getLsbD_ushiftRight, clear _ (by omega)]
    rw [crcRounds, first, ih others, ← BitVec.shiftRight_add, Nat.add_comm]

/-- A word is its low byte and the bits above it, which eight rounds only shift (40_crc.md R116 (c)). -/
theorem crcRounds_eight_xor (acc w : Word) :
    crcRounds 8 (acc ^^^ w) = crcByte acc (w.setWidth 8) ^^^ (w >>> 8) := by
  have clear : ∀ k < 8, (w ^^^ (w.setWidth 8).setWidth 32).getLsbD k = false := by
    intro k h
    simp [show k < 32 by omega, h]
  have shifted : crcRounds 8 (w ^^^ (w.setWidth 8).setWidth 32) = w >>> 8 := by
    rw [crcRounds_eq_shift clear]
    ext k hk
    simp
  have split : acc ^^^ w = (acc ^^^ (w.setWidth 8).setWidth 32) ^^^ (w ^^^ (w.setWidth 8).setWidth 32) :=
    (xor_xor_xor_cancel _ _ _).symm
  rw [split, crcRounds_xor, shifted, crcByte]

/-- Running the bytes of a word, least significant first, is 32 rounds over the whole word (40_crc.md R116 (d)). -/
theorem crcRun_reverse_wordBytes (acc w : Word) :
    crcRun acc (wordBytes w).reverse = crcRounds 32 (acc ^^^ w) := by
  have bytes : (wordBytes w).reverse =
      [w.setWidth 8, (w >>> 8).setWidth 8, (w >>> 16).setWidth 8, (w >>> 24).setWidth 8] := by
    have byte (k : Nat) : w.extractLsb' k 8 = (w >>> k).setWidth 8 := by
      ext j hj
      simp
    simp only [wordBytes, byte, BitVec.ushiftRight_zero, List.reverse_cons, List.reverse_nil, List.nil_append,
      List.cons_append]
  have none : w >>> 32 = 0#32 := BitVec.ushiftRight_eq_zero le_rfl
  have rounds : crcRounds 32 (acc ^^^ w) =
      crcRounds 8 (crcRounds 8 (crcRounds 8 (crcRounds 8 (acc ^^^ w)))) := by
    rw [← crcRounds_add, ← crcRounds_add, ← crcRounds_add]
  rw [rounds, bytes]
  simp only [crcRounds_eight_xor, ← BitVec.shiftRight_add, Nat.reduceAdd, none, BitVec.xor_zero, crcRun_cons,
    crcRun_nil]

theorem crcRun_append (acc : Word) (a b : List Byte) : crcRun acc (a ++ b) = crcRun (crcRun acc a) b := by
  induction a generalizing acc with
  | nil => rfl
  | cons x a ih => exact ih (crcByte acc x)

/-- The residue: 32 rounds over all ones (40_crc.md R116 (d)). -/
theorem crcRun_append_crc32 (m : List Byte) :
    crcRun 0xFFFFFFFF#32 (m ++ (wordBytes (crc32 m)).reverse) = 0xDEBB20E3#32 := by
  have ones (a : Word) : a ^^^ ~~~a = 0xFFFFFFFF#32 := by
    rw [← BitVec.xor_allOnes, ← BitVec.xor_assoc, BitVec.xor_self, BitVec.zero_xor]
    rfl
  rw [crcRun_append, crcRun_reverse_wordBytes, crc32_eq_not_crcRun, ones]
  decide +kernel

/-! ### The streaming commands -/

theorem exec_crcupd (data : List Byte) (s : State) :
    exec (.crcupd data) s = .next ((s.setAcc (crcRun s.acc data)).answer 0 []) := rfl

/-- A command that answers OK hands its state to the ones behind it (30_encoding.md R90). -/
theorem execUntilError_cons {i : Instr} {s t : State} {result : Word} {out : List Byte}
    (h : exec i s = .next (t.answer result out)) (rest : List Instr) :
    execUntilError (i :: rest) s = execUntilError rest (t.answer result out) := by
  rw [execUntilError, h]
  rfl

/-- CRCUPDs and a CRCFIN behind them answer for the pieces joined (40_crc.md R115). -/
theorem execUntilError_crcupds_crcfin (parts : List (List Byte)) (s : State) :
    execUntilError (parts.map .crcupd ++ [.crcfin]) s =
      .next ((s.setAcc (crcRun s.acc parts.flatten)).answer (~~~crcRun s.acc parts.flatten) []) := by
  induction parts generalizing s with
  | nil => exact execUntilError_cons (exec_crcfin s) []
  | cons part parts ih =>
    rw [List.map_cons, List.cons_append, execUntilError_cons (exec_crcupd part s), ih, List.flatten_cons, crcRun_append]
    rfl

end Machine

/-! ### The statements -/

open Machine

/-- Settles O2: the bits above the low byte are shifted, the low byte is looked up. -/
theorem crcByteHasTheTableForm : Obligations.CrcByteHasTheTableForm := by
  refine ⟨fun acc b => ?_, by decide, by decide, by decide⟩
  have above : b.setWidth 32 >>> 8 = 0#32 := by
    ext k hk
    simp
  have start : crcByte acc b = crcRounds 8 (0 ^^^ (acc ^^^ b.setWidth 32)) := by
    rw [crcByte, BitVec.ofNat_eq_ofNat, BitVec.zero_xor]
  rw [start, crcRounds_eight_xor, BitVec.ushiftRight_xor_distrib, above, BitVec.xor_zero, BitVec.xor_comm]

/-- Settles O3: by induction on the first piece. -/
theorem crcRunChunks : Obligations.CrcRunChunks := fun acc a b => (crcRun_append acc a b).symm

/-- Settles O4: running the complement of the accumulator into it is 32 rounds over all ones, whatever the message. -/
theorem crcResidueIsFixed : Obligations.CrcResidueIsFixed := by
  refine ⟨fun m => ⟨crcRun_append_crc32 m, ?_⟩, by decide +kernel⟩
  rw [crc32_eq_not_crcRun, crcRun_append_crc32]
  rfl

/-- Settles O7: the word is CRCUPD's; no bytes are no step of the run, and two pieces run as the piece joined. -/
theorem crcupdFeedsTheStream : Obligations.CrcupdFeedsTheStream := by
  refine ⟨fun data fits => ?_, exec_crcupd, fun s => rfl, fun a b s t u v first second joined => ?_⟩
  · have word : 0x0C000000#32 + BitVec.ofNat 32 data.length = encodeWord (.crcupd data) :=
      mkWord_zero_add_length 0x03 fits
    rw [word]
    exact decodeCommand_encodeWord (.crcupd data)
  · obtain rfl := Host.Outcome.next.inj first
    obtain rfl := Host.Outcome.next.inj second
    obtain rfl := Host.Outcome.next.inj joined
    exact (crcRun_append s.acc a b).symm

/-- Settles O8: CRCFIN writes the response alone, and reads ACC. -/
theorem crcfinReadsTheStream : Obligations.CrcfinReadsTheStream := by
  refine ⟨by decide, exec_crcfin, fun s t first => ?_⟩
  obtain rfl := Host.Outcome.next.inj first
  rfl

/-- Settles O9: CRCINIT starts the run, and the pieces feed it by induction. -/
theorem streamEqualsOneShot : Obligations.StreamEqualsOneShot := by
  intro parts s
  rw [Pseudo.expand, List.append_assoc, List.singleton_append, execUntilError_cons (exec_crcinit s),
    execUntilError_crcupds_crcfin, crc32_eq_not_crcRun]
  rfl

end Sys2Proof
end

section
/-! LOAD (41_frame.md R131 to R136): the parse of a frame in its wire format and the other way round, which frames LOAD
accepts, how the segments tile one, and what the readers answer after a LOAD. -/

namespace Sys2Proof

namespace Machine

/-! ### The wire format -/

/-- What may stand between the tags and the checksum field: nothing, or one typed payload (41_frame.md R134 (c)). -/
def PayloadTail (tail : List Byte) : Prop :=
  tail = [] ∨ ∃ (etherType : Half) (rest : List Byte), etherType ≠ 0x8100#16 ∧ tail = halfBytes etherType ++ rest

section
variable {header fcs tail data back : List Byte} {tcis : List Half} {rem off : Nat}

theorem length_frame (twelve : header.length = 12) (four : fcs.length = 4) :
    (header ++ tagsBytes tcis ++ tail ++ fcs).length - 4 - 12 = tail.length + 4 * tcis.length := by
  simp only [List.length_append, length_tagsBytes]
  omega

/-- The parse of a frame takes its tags and goes on with what stands behind them (41_frame.md R134 (b)). -/
theorem parseFrame_tags (twelve : header.length = 12) (four : fcs.length = 4) :
    parseFrame (Memory.fill (header ++ tagsBytes tcis ++ tail ++ fcs))
      (header ++ tagsBytes tcis ++ tail ++ fcs).length =
    parseLoop (Memory.fill (header ++ tagsBytes tcis ++ tail ++ fcs)) tail.length (12 + 4 * tcis.length)
      (tcis.map .vlanTag) := by
  have behindHeader : (header ++ tagsBytes tcis ++ tail ++ fcs).drop 12 = tagsBytes tcis ++ (tail ++ fcs) := by
    rw [List.append_assoc, List.append_assoc, List.drop_left' twelve]
  rw [parseFrame, length_frame twelve four, parseLoop_tags tcis _ _ behindHeader, List.nil_append]

theorem drop_header_tags (twelve : header.length = 12) :
    (header ++ tagsBytes tcis ++ tail ++ fcs).drop (12 + 4 * tcis.length) = tail ++ fcs := by
  rw [List.append_assoc, ← length_tagsBytes, ← twelve, ← List.length_append, List.drop_left]

theorem parseFrame_tags_only (twelve : header.length = 12) (four : fcs.length = 4) :
    parseFrame (Memory.fill (header ++ tagsBytes tcis ++ fcs)) (header ++ tagsBytes tcis ++ fcs).length =
      some (tcis.map .vlanTag) := by
  have parsed := parseFrame_tags (tail := []) (tcis := tcis) twelve four
  rwa [List.append_nil, List.length_nil, parseLoop_zero] at parsed

theorem parseFrame_payload {etherType : Half} (twelve : header.length = 12) (four : fcs.length = 4)
    (other : etherType ≠ 0x8100#16) :
    parseFrame (Memory.fill (header ++ tagsBytes tcis ++ (halfBytes etherType ++ data) ++ fcs))
      (header ++ tagsBytes tcis ++ (halfBytes etherType ++ data) ++ fcs).length =
      some (tcis.map .vlanTag ++
        [.generic etherType (BitVec.ofNat 11 (14 + 4 * tcis.length)) (BitVec.ofNat 11 data.length)]) := by
  have type : (Memory.fill (header ++ tagsBytes tcis ++ (halfBytes etherType ++ data) ++ fcs)).read2
      (12 + 4 * tcis.length) = etherType :=
    Memory.read2_fill ((drop_header_tags twelve).trans (List.append_assoc _ _ _))
  have length : (halfBytes etherType ++ data).length = data.length + 2 := by
    rw [List.length_append, Nat.add_comm]
    rfl
  have cursor : 12 + 4 * tcis.length + 2 = 14 + 4 * tcis.length := by omega
  have noTag : (Memory.fill (header ++ tagsBytes tcis ++ (halfBytes etherType ++ data) ++ fcs)).read2
      (12 + 4 * tcis.length) ≠ Config.tpidVlan := type.trans_ne other
  rw [parseFrame_tags twelve four, length, parseLoop_generic noTag, type, cursor]

theorem halfBytes_append (a b : Byte) : halfBytes (a ++ b) = [a, b] := by
  have high : (a ++ b).extractLsb' 8 8 = a := BitVec.extractLsb'_append_eq_left
  have low : (a ++ b).extractLsb' 0 8 = b := BitVec.extractLsb'_append_eq_right
  rw [halfBytes, high, low]

theorem byte_append_eq_iff (a b c d : Byte) : a ++ b = c ++ d ↔ a = c ∧ b = d := by
  refine ⟨fun h => ?_, by rintro ⟨rfl, rfl⟩; rfl⟩
  have bytes := congrArg halfBytes h
  rw [halfBytes_append, halfBytes_append] at bytes
  cases bytes
  exact ⟨rfl, rfl⟩

/-- A 16-bit read of a filled buffer, inside the payload, is a field of the payload. -/
theorem drop_eq_halfBytes (inside : off + 2 ≤ data.length) :
    data.drop off = halfBytes ((Memory.fill data).read2 off) ++ data.drop (off + 2) := by
  have first : off < data.length := by omega
  have second : off + 1 < data.length := by omega
  rw [Memory.read2_eq, halfBytes_append, Memory.byteAt_fill, Memory.byteAt_fill, List.getD_eq_getElem _ _ first,
    List.getD_eq_getElem _ _ second, List.drop_eq_getElem_cons first, List.drop_eq_getElem_cons second]
  rfl

/-- Where the loop comes through, the bytes it took are whole tags and then nothing or one typed payload. -/
theorem exists_tags_of_parseLoop (data : List Byte) (rem off : Nat) :
    off + rem ≤ data.length → (parseLoop (Memory.fill data) rem off []).isSome →
      ∃ (tcis : List Half) (tail : List Byte),
        (data.drop off).take rem = tagsBytes tcis ++ tail ∧ PayloadTail tail := by
  refine parse_induction (motive := fun rem off => off + rem ≤ data.length →
    (parseLoop (Memory.fill data) rem off []).isSome → ∃ (tcis : List Half) (tail : List Byte),
      (data.drop off).take rem = tagsBytes tcis ++ tail ∧ PayloadTail tail) (Memory.fill data) ?_ ?_ ?_ ?_ ?_ rem off
  · exact fun off _ _ => ⟨[], [], List.take_zero, .inl rfl⟩
  · intro off _ some
    rw [parseLoop_one] at some
    cases some
  · intro rest off other inside _
    refine ⟨[], halfBytes ((Memory.fill data).read2 off) ++ (data.drop (off + 2)).take rest, ?_,
      .inr ⟨_, _, other, rfl⟩⟩
    rw [drop_eq_halfBytes (by omega)]
    rfl
  · intro rest off tpid short _ some
    rw [parseLoop_cut tpid short] at some
    cases some
  · intro rest off tpid ih inside some
    rw [parseLoop_tag tpid, parseLoop_append, Option.isSome_map] at some
    obtain ⟨tcis, tail, bytes, form⟩ := ih (by omega) some
    refine ⟨(Memory.fill data).read2 (off + 2) :: tcis, tail, ?_, form⟩
    rw [drop_eq_halfBytes (by omega), tpid, drop_eq_halfBytes (off := off + 2) (by omega), tagsBytes_cons]
    simp only [List.append_assoc]
    rw [← bytes]
    rfl

/-- A frame in wire format comes through the parse. -/
theorem isSome_parseFrame (twelve : header.length = 12) (four : fcs.length = 4) (form : PayloadTail tail) :
    (parseFrame (Memory.fill (header ++ tagsBytes tcis ++ tail ++ fcs))
      (header ++ tagsBytes tcis ++ tail ++ fcs).length).isSome := by
  obtain rfl | ⟨etherType, rest, other, rfl⟩ := form
  · rw [List.append_nil, parseFrame_tags_only twelve four]
    rfl
  · rw [parseFrame_payload twelve four other]
    rfl

/-- A frame that comes through the parse is in wire format. -/
theorem exists_frame_of_parseFrame (long : 16 ≤ data.length)
    (parsed : (parseFrame (Memory.fill data) data.length).isSome) :
    ∃ (header fcs tail : List Byte) (tcis : List Half), header.length = 12 ∧ fcs.length = 4 ∧
      data = header ++ tagsBytes tcis ++ tail ++ fcs ∧ PayloadTail tail := by
  have inside : 12 + (data.length - 4 - 12) ≤ data.length := by omega
  obtain ⟨tcis, tail, bytes, form⟩ := exists_tags_of_parseLoop data _ 12 inside parsed
  have behind : (data.drop 12).drop (data.length - 4 - 12) = data.drop (data.length - 4) := by
    rw [List.drop_drop]
    congr 1
    omega
  refine ⟨data.take 12, data.drop (data.length - 4), tail, tcis, ?_, ?_, ?_, form⟩
  · rw [List.length_take]
    omega
  · rw [List.length_drop]
    omega
  · rw [List.append_assoc (data.take 12), ← bytes, List.append_assoc, ← behind, List.take_append_drop,
      List.take_append_drop]

theorem parseFrame_short {m : Memory} {n : Nat} (short : n ≤ 16) : parseFrame m n = some [] := by
  have none : n - 4 - 12 = 0 := by omega
  rw [parseFrame, none, parseLoop_zero]

/-- The segments of a parse stand for exactly the bytes it was given (41_frame.md R136). -/
theorem sum_wireLength_of_parseLoop (m : Memory) (rem off : Nat) :
    rem ≤ 1518 → ∀ segs, parseLoop m rem off [] = some segs → (segs.map Segment.wireLength).sum = rem := by
  refine parse_induction (motive := fun rem off => rem ≤ 1518 → ∀ segs, parseLoop m rem off [] = some segs →
    (segs.map Segment.wireLength).sum = rem) m ?_ ?_ ?_ ?_ ?_ rem off
  · intro off _ segs parsed
    rw [parseLoop_zero] at parsed
    cases parsed
    rfl
  · intro off _ segs parsed
    rw [parseLoop_one] at parsed
    cases parsed
  · intro rest off other bound segs parsed
    rw [parseLoop_generic other] at parsed
    cases parsed
    simp only [List.nil_append, List.map_cons, List.map_nil, List.sum_cons, List.sum_nil, Segment.wireLength,
      Config.typeLen, BitVec.toNat_ofNat]
    omega
  · intro rest off tpid short _ segs parsed
    rw [parseLoop_cut tpid short] at parsed
    cases parsed
  · intro rest off tpid ih bound segs parsed
    rw [parseLoop_tag tpid, parseLoop_append] at parsed
    obtain ⟨more, parsed', rfl⟩ := Option.map_eq_some_iff.mp parsed
    have sum := ih (by omega) more parsed'
    simp only [List.nil_append, List.singleton_append, List.map_cons, List.sum_cons, Segment.wireLength,
      Config.tagLen, sum]
    omega

end

/-! ### The state a LOAD that fits leaves -/

section
variable {s t : State} {data : List Byte}

theorem buf_of_exec_load (fits : data.length ≤ 1518) (h : exec (.load data) s = .next t) :
    t.buf = Memory.fill data := by
  obtain rfl := Host.Outcome.next.inj ((exec_load_fits s fits).symm.trans h)
  rw [State.parseSegments_buf, State.extractHeader_buf, State.copyFrame_buf]

theorem toNat_len_of_exec_load (fits : data.length ≤ 1518) (h : exec (.load data) s = .next t) :
    t.len.toNat = data.length := by
  obtain rfl := Host.Outcome.next.inj ((exec_load_fits s fits).symm.trans h)
  rw [State.parseSegments_len, State.extractHeader_len, State.copyFrame_len, len_ofNat fits]

theorem hdr_of_exec_load (fits : data.length ≤ 1518) (h : exec (.load data) s = .next t) :
    t.hdr = Header.ofBuf (Memory.fill data) := by
  obtain rfl := Host.Outcome.next.inj ((exec_load_fits s fits).symm.trans h)
  exact State.loaded_hdr s data

/-- A LOAD that answers OK has built its table by a parse that came through. -/
theorem parseFrame_of_exec_load (fits : data.length ≤ 1518) (h : exec (.load data) s = .next t)
    (ok : t.response = some ⟨.ok, 0, []⟩) : parseFrame (Memory.fill data) data.length = some t.seg := by
  cases parsed : parseFrame (Memory.fill data) data.length with
  | none =>
    obtain rfl := Host.Outcome.next.inj ((exec_load_truncated s fits parsed).symm.trans h)
    cases ok
  | some segs =>
    obtain rfl := Host.Outcome.next.inj ((exec_load_parsed s fits parsed).symm.trans h)
    rfl

end

/-! ### Reading the frame back (41_frame.md R137 to R142) -/

section
variable {s : State}

theorem exec_getdst (s : State) : exec .getdst s = .next (s.answer 0 s.hdr.dst.bytes) := rfl

theorem exec_getsrc (s : State) : exec .getsrc s = .next (s.answer 0 s.hdr.src.bytes) := rfl

theorem exec_getbuf_read (bound : s.len.toNat ≤ 1518) :
    exec .getbuf s = .next (s.answer (BitVec.ofNat 32 s.len.toNat) (s.buf.slice 0 s.len.toNat)) := by
  rw [exec_getbuf, State.withBytes_inside (by rwa [Nat.zero_add]), BitVec.ofNat_toNat]

theorem exec_validate_short (short : s.len.toNat < 16) : exec .validate s = .next (s.raise .frameTooShort) := by
  rw [exec_validate, State.withChecksumField_short short]

theorem truthWord_beq (v w : Word) : truthWord (v == w) = if v = w then 1 else 0 := by
  by_cases h : v = w
  · rw [if_pos h, beq_iff_eq.mpr h]
    rfl
  · rw [if_neg h, beq_eq_false_iff_ne.mpr h]
    rfl

theorem exec_validate_read (long : 16 ≤ s.len.toNat) (bound : s.len.toNat ≤ 1518) :
    exec .validate s = .next (s.answer
      (if crc32 (s.buf.slice 0 (s.len.toNat - 4)) = s.buf.read4 (s.len.toNat - 4) then 1 else 0) []) := by
  rw [exec_validate, State.withChecksumField_read long bound, truthWord_beq]

/-- A slice from 0, as the rules write it. -/
theorem Memory.slice_zero_eq_map (m : Memory) (n : Nat) : m.slice 0 n = (List.range n).map m.byteAt := by
  simp only [Memory.slice_eq_map, Nat.zero_add]

end

/-- The second address of a header read off a filled buffer is the second six bytes (41_frame.md R133). -/
theorem Header.bytes_src_fill {data : List Byte} (h : 12 ≤ data.length) :
    (Header.ofBuf (Memory.fill data)).src.bytes = (data.drop 6).take 6 := by
  have dst : (Header.ofBuf (Memory.fill data)).dst.bytes.length = 6 := rfl
  have both := (Header.bytes_ofBuf (Memory.fill data)).trans (Memory.slice_fill data 12 h)
  rw [← List.drop_left' dst (l₂ := (Header.ofBuf (Memory.fill data)).src.bytes), both, List.drop_take]

theorem Header.bytes_dst_fill {data : List Byte} (h : 12 ≤ data.length) :
    (Header.ofBuf (Memory.fill data)).dst.bytes = data.take 6 :=
  Memory.slice_fill data 6 (by omega)

theorem wordBytes_wordOfBytes (a b c d : Byte) : wordBytes (wordOfBytes a b c d) = [a, b, c, d] := by
  have ha := a.isLt
  have hb := b.isLt
  have hc := c.isLt
  have hd := d.isLt
  simp only [wordBytes_eq_ofNat, wordOfBytes, toNat_append_eq_mul_add, List.cons.injEq, and_true, ← BitVec.toNat_inj,
    BitVec.toNat_ofNat]
  refine ⟨?_, ?_, ?_, ?_⟩ <;> omega

theorem wordBytes_eq_iff (w : Word) (a b c d : Byte) : wordBytes w = [a, b, c, d] ↔ w = wordOfBytes a b c d := by
  refine ⟨fun bytes => ?_, fun word => by rw [word, wordBytes_wordOfBytes]⟩
  rw [← wordBytes_wordOfBytes] at bytes
  simp only [wordBytes, List.cons.injEq, and_true] at bytes
  obtain ⟨h3, h2, h1, h0⟩ := bytes
  rw [← wordOfBytes_bytes w, h3, h2, h1, h0, wordOfBytes_bytes]

/-- The checksum field of a filled buffer is the last four bytes of the payload, the first of them leading. -/
theorem Memory.read4_fill (front : List Byte) (a b c d : Byte) :
    (Memory.fill (front ++ [a, b, c, d])).read4 front.length = wordOfBytes a b c d := by
  have byte (k : Nat) : (Memory.fill (front ++ [a, b, c, d])).byteAt (front.length + k) = [a, b, c, d].getD k 0 := by
    rw [Memory.byteAt_fill, List.getD_append_right _ _ _ _ (Nat.le_add_right _ _), Nat.add_sub_cancel_left]
  have first := byte 0
  rw [Nat.add_zero] at first
  rw [Memory.read4_eq, first, byte 1, byte 2, byte 3]
  rfl

end Machine

/-! ### The statements -/

open Machine

/-- Settles O10: the size check stands in front of every write, and a LOAD that fits answers OK or TruncatedSegment. -/
theorem loadTooLargeChangesNothing : Obligations.LoadTooLargeChangesNothing := by
  refine ⟨fun data s large => execLoad_large s large, fun data rest s large fits atPort => ?_, fun data s fits => ?_⟩
  · have wf : (Instr.load data).wf = true := decide_eq_true fits
    rw [step_command (atPort ▸ fetch_encode wf rest)]
    exact execLoad_large _ large
  · obtain ok | truncated := State.parseSegments_response (s.copyFrame data).extractHeader
    · exact ⟨_, _, exec_load_fits s fits, ok, by simp⟩
    · exact ⟨_, _, exec_load_fits s fits, truncated, by simp⟩

/-- Settles O12: the loop takes the tags and then ends, or takes the payload as its last segment. -/
theorem loadParsesTagsThenPayload : Obligations.LoadParsesTagsThenPayload := by
  refine ⟨fun header fcs tcis s twelve four fits => ?_,
    fun header fcs data tcis etherType s twelve four other fits => ?_⟩
  · refine ⟨_, exec_load_parsed s fits (parseFrame_tags_only twelve four), rfl, rfl, ?_, rfl⟩
    have few : tcis.length + 1 < 512 := by
      simp only [List.length_append, length_tagsBytes] at fits
      omega
    rw [State.answer_nseg, State.setSegments_nseg, List.length_map, BitVec.toNat_ofNat, Nat.mod_eq_of_lt (by omega)]
  · refine ⟨_, exec_load_parsed s fits (parseFrame_payload twelve four other), rfl, rfl, ?_, rfl⟩
    have few : tcis.length + 1 < 512 := by
      simp only [List.length_append, length_tagsBytes] at fits
      omega
    rw [State.answer_nseg, State.setSegments_nseg, List.length_append, List.length_map, BitVec.toNat_ofNat,
      List.length_singleton, Nat.mod_eq_of_lt few]

/-- Settles O14: no byte stands between the header and the checksum field, so the loop makes no pass. -/
theorem loadShortHasNoSegments : Obligations.LoadShortHasNoSegments :=
  fun _ s short => ⟨_, exec_load_parsed s (by omega) (parseFrame_short short), rfl, rfl, rfl, rfl⟩

/-- Settles O15: the parse comes through on a frame exactly when the frame is in wire format. -/
theorem loadAcceptsExactlyTheWireFormat : Obligations.LoadAcceptsExactlyTheWireFormat := by
  intro data s long fits
  cases parsed : parseFrame (Memory.fill data) data.length with
  | some segs =>
    refine ⟨_, exec_load_parsed s fits parsed, .inl rfl, fun _ => ?_, fun _ => rfl⟩
    exact exists_frame_of_parseFrame long (Option.isSome_of_eq_some parsed)
  | none =>
    refine ⟨_, exec_load_truncated s fits parsed, .inr rfl, fun ok => ?_, fun frame => ?_⟩
    · cases ok
    · obtain ⟨header, fcs, tail, tcis, twelve, four, rfl, form⟩ := frame
      have through := isSome_parseFrame (tcis := tcis) twelve four form
      rw [parsed] at through
      cases through

/-- Settles O16: two LOADs of one payload leave states that differ in ACC and the port only. -/
theorem loadIgnoresHistory : Obligations.LoadIgnoresHistory := by
  intro data s s' t t' fits h h'
  obtain ⟨u, first, second⟩ := exec_load_congr s s' fits
  obtain rfl := Host.Outcome.next.inj (first.symm.trans h)
  obtain rfl := Host.Outcome.next.inj (second.symm.trans h')
  exact ⟨rfl, rfl, rfl, rfl, rfl, rfl, rfl⟩

/-- Settles O17: the segments stand for the bytes between header and checksum field, each read off its place. -/
theorem loadTilesTheFrame : Obligations.LoadTilesTheFrame := by
  intro data s t long fits h ok
  have parsed := parseFrame_of_exec_load fits h ok
  have sum : (t.seg.map Segment.wireLength).sum = data.length - 4 - 12 :=
    sum_wireLength_of_parseLoop _ _ _ (by omega) _ parsed
  refine ⟨by omega, fun j tci entry => ?_⟩
  obtain ⟨-, -, entries⟩ := parseLoop_entries _ _ _ _ parsed
  obtain ⟨-, -, at_place⟩ := entries j _ entry
  rw [buf_of_exec_load fits h]
  exact at_place

/-- Settles O18: the value of bytes joined, and that two bytes joined are equal only byte by byte. -/
theorem bufferReadsAreBigEndian : Obligations.BufferReadsAreBigEndian := by
  intro m a
  refine ⟨?_, ?_, ?_⟩
  · exact toNat_append_eq_mul_add _ _
  · rw [Memory.read4_eq]
    simp only [toNat_append_eq_mul_add]
    omega
  · have value : (0x8100#16 : Half) = 0x81#8 ++ 0x00#8 := rfl
    rw [Memory.read2_eq, value, byte_append_eq_iff]

/-- Settles O19: the checksum field and the bytes in front of it, both inside BUF. -/
theorem validateComparesTheChecksum : Obligations.ValidateComparesTheChecksum := by
  refine ⟨by decide, fun s short => exec_validate_short short, fun s long bound => ?_⟩
  rw [exec_validate_read long bound, Memory.slice_zero_eq_map, State.answer]

/-- Settles O22: each answers its six bytes of HDR and writes the response alone. -/
theorem headerReadsAnswerHdr : Obligations.HeaderReadsAnswerHdr :=
  ⟨by decide, by decide, exec_getdst, exec_getsrc⟩

/-- Settles O23: the frame lies inside BUF. -/
theorem getbufReadsTheFrame : Obligations.GetbufReadsTheFrame := by
  refine ⟨by decide, fun s bound => ?_⟩
  rw [exec_getbuf_read bound, Memory.slice_zero_eq_map, State.answer]

/-- Settles O24: the readers see the filled buffer and the header read off it. -/
theorem loadReadsBack : Obligations.LoadReadsBack := by
  intro data s t fits h
  have len := toNat_len_of_exec_load fits h
  refine ⟨?_, fun twelve => ⟨?_, ?_⟩⟩
  · have bytes : t.buf.slice 0 data.length = data := by
      rw [buf_of_exec_load fits h, Memory.slice_fill _ _ le_rfl, List.take_length]
    rw [exec_getbuf_read (len.trans_le fits), len, bytes, State.answer]
  · have dst : t.hdr.dst.bytes = data.take 6 := by rw [hdr_of_exec_load fits h, Header.bytes_dst_fill twelve]
    rw [exec_getdst, dst, State.answer]
  · have src : t.hdr.src.bytes = (data.drop 6).take 6 := by
      rw [hdr_of_exec_load fits h, Header.bytes_src_fill twelve]
    rw [exec_getsrc, src, State.answer]

/-- Settles O25: the checksum field is the last four bytes, the run is over the front, and a word equals the one of
four bytes exactly when those are its bytes. -/
theorem loadedFrameValidatesIffChecksumMatches : Obligations.LoadedFrameValidatesIffChecksumMatches := by
  intro front a b c d s long bound
  have length : (front ++ [a, b, c, d]).length = front.length + 4 := List.length_append
  have fits : (front ++ [a, b, c, d]).length ≤ 1518 := length.trans_le bound
  refine ⟨_, exec_load_fits s fits, ?_⟩
  have h := exec_load_fits s fits
  generalize (s.copyFrame (front ++ [a, b, c, d])).extractHeader.parseSegments = t at h ⊢
  have len : t.len.toNat = front.length + 4 := (toNat_len_of_exec_load fits h).trans length
  have field : t.buf.read4 (t.len.toNat - 4) = wordOfBytes a b c d := by
    rw [buf_of_exec_load fits h, len, Nat.add_sub_cancel, Memory.read4_fill]
  have slice : t.buf.slice 0 (t.len.toNat - 4) = front := by
    rw [buf_of_exec_load fits h, len, Nat.add_sub_cancel, Memory.slice_fill _ _ (by omega), List.take_left]
  refine ⟨?_, ?_⟩
  · rw [exec_fcs_read (by omega) (by omega), field, State.answer]
  · simp only [exec_validate_read (s := t) (by omega) (by omega), field, slice, wordBytes_eq_iff, State.answer]

end Sys2Proof
end

section
/-! Reading one entry (42_segment.md R161 to R163), the TCI after all three mutators (43_vlan.md R181), and the answers
at reset (70_reset_and_hazards.md R221). -/

namespace Sys2Proof

namespace Machine

theorem exec_segkind (sel : Sel) (s : State) :
    exec (.segkind sel) s = s.withSegment sel fun e => .next (s.answer (kindWord e.kind) []) := rfl

theorem exec_getype (sel : Sel) (s : State) :
    exec (.getype sel) s = s.withGeneric sel fun etherType _ _ => .next (s.answer (etherType.setWidth 32) []) := rfl

theorem exec_gdata (sel : Sel) (s : State) :
    exec (.gdata sel) s = s.withGeneric sel fun _ doff dlen =>
      s.withBytes doff.toNat dlen.toNat fun bytes => .next (s.answer (dlen.setWidth 32) bytes) := rfl

/-! ### The three mutators one after the other -/

/-- A field of `n` bits, zero-extended to a value, stays below `2 ^ n`. -/
theorem toNat_setWidth_lt {n : Nat} (field : BitVec n) (narrow : n ≤ 16) : (field.setWidth 16).toNat < 2 ^ n :=
  (BitVec.toNat_setWidth_of_le narrow).trans_lt field.isLt

/-- On every tag at `sel` the command answers OK and rewrites the TCI by `f`. -/
def Rewrites (sel : Sel) (i : Instr) (f : Half → Half) : Prop :=
  ∀ (s : State) (old : Half), sel.toNat < s.nseg.toNat → s.seg[sel.toNat]? = some (.vlanTag old) →
    exec i s = .next ((s.setTci sel (f old)).answer 0 [])

section
variable {sel : Sel} {i j k : Instr} {f g h : Half → Half}

theorem rewrites_setpcp (sel : Sel) {p : BitVec 3} :
    Rewrites sel (.setpcp sel (p.setWidth 16)) fun t => tciPack p (tciDei t) (tciVid t) := by
  intro s old inside entry
  have fits : (p.setWidth 16).toNat ≤ 7 := Nat.le_of_lt_succ (toNat_setWidth_lt p (by decide))
  rw [exec_setpcp, State.mutateTag_fits inside entry fits, tciSetPcp_eq_tciPack]

theorem rewrites_setdei (sel : Sel) {d : BitVec 1} :
    Rewrites sel (.setdei sel (d.setWidth 16)) fun t => tciPack (tciPcp t) d (tciVid t) := by
  intro s old inside entry
  have fits : (d.setWidth 16).toNat ≤ 1 := Nat.le_of_lt_succ (toNat_setWidth_lt d (by decide))
  rw [exec_setdei, State.mutateTag_fits inside entry fits, tciSetDei_eq_tciPack]

theorem rewrites_setvid (sel : Sel) {v : BitVec 12} :
    Rewrites sel (.setvid sel (v.setWidth 16)) fun t => tciPack (tciPcp t) (tciDei t) v := by
  intro s old inside entry
  have fits : (v.setWidth 16).toNat ≤ 4095 := Nat.le_of_lt_succ (toNat_setWidth_lt v (by decide))
  rw [exec_setvid, State.mutateTag_fits inside entry fits, tciSetVid_eq_tciPack]

/-- A tag that a mutator rewrote stands at the same place with its new TCI. -/
theorem State.setTci_entry {s : State} {old new : Half} (entry : s.seg[sel.toNat]? = some (.vlanTag old)) :
    (s.setTci sel new).seg[sel.toNat]? = some (.vlanTag new) := by
  obtain ⟨inside, -⟩ := List.getElem?_eq_some_iff.mp entry
  exact List.getElem?_set_self inside

/-- A rewrite hands the tag with its new TCI to the commands behind it. -/
theorem execUntilError_cons_of_rewrites (hi : Rewrites sel i f) {s : State} {old : Half}
    (inside : sel.toNat < s.nseg.toNat) (entry : s.seg[sel.toNat]? = some (.vlanTag old)) (rest : List Instr) :
    ∃ t, execUntilError (i :: rest) s = execUntilError rest t ∧ sel.toNat < t.nseg.toNat ∧
      t.seg[sel.toNat]? = some (.vlanTag (f old)) :=
  ⟨_, execUntilError_cons (hi s old inside entry) rest, inside, State.setTci_entry entry⟩

/-- Three rewrites of one tag, one after the other, compose. -/
theorem execUntilError_rewrites (hi : Rewrites sel i f) (hj : Rewrites sel j g) (hk : Rewrites sel k h) {s : State}
    {old : Half} (inside : sel.toNat < s.nseg.toNat) (entry : s.seg[sel.toNat]? = some (.vlanTag old)) :
    ∃ t, execUntilError [i, j, k] s = .next t ∧ sel.toNat < t.nseg.toNat ∧
      t.seg[sel.toNat]? = some (.vlanTag (h (g (f old)))) := by
  obtain ⟨t, first, inside, entry⟩ := execUntilError_cons_of_rewrites hi inside entry [j, k]
  obtain ⟨u, second, inside, entry⟩ := execUntilError_cons_of_rewrites hj inside entry [k]
  obtain ⟨v, third, inside, entry⟩ := execUntilError_cons_of_rewrites hk inside entry []
  exact ⟨v, (first.trans second).trans third, inside, entry⟩

end

/-- The orders of three things. -/
theorem perm_three_cases {α : Type} {l : List α} {a b c : α} (h : l.Perm [a, b, c]) :
    l = [a, b, c] ∨ l = [b, a, c] ∨ l = [c, b, a] ∨ l = [b, c, a] ∨ l = [c, a, b] ∨ l = [a, c, b] := by
  have mem := List.mem_permutations.mpr h
  simpa [List.permutations, List.permutationsAux_cons] using mem

/-- SETPCP, SETDEI and SETVID in any order leave the three values packed, whatever the TCI was (43_vlan.md R181). -/
theorem execUntilError_perm_mutators {cmds : List Instr} {sel : Sel} {p : BitVec 3} {d : BitVec 1} {v : BitVec 12}
    {s : State} {old : Half}
    (order : cmds.Perm [.setpcp sel (p.setWidth 16), .setdei sel (d.setWidth 16), .setvid sel (v.setWidth 16)])
    (inside : sel.toNat < s.nseg.toNat) (entry : s.seg[sel.toNat]? = some (.vlanTag old)) :
    ∃ t, execUntilError cmds s = .next t ∧ sel.toNat < t.nseg.toNat ∧
      t.seg[sel.toNat]? = some (.vlanTag (tciPack p d v)) := by
  have P := rewrites_setpcp sel (p := p)
  have D := rewrites_setdei sel (d := d)
  have V := rewrites_setvid sel (v := v)
  obtain rfl | rfl | rfl | rfl | rfl | rfl := perm_three_cases order
  · simpa using execUntilError_rewrites P D V inside entry
  · simpa using execUntilError_rewrites D P V inside entry
  · simpa using execUntilError_rewrites V D P inside entry
  · simpa using execUntilError_rewrites D V P inside entry
  · simpa using execUntilError_rewrites V P D inside entry
  · simpa using execUntilError_rewrites P V D inside entry

end Machine

/-! ### The statements -/

open Machine

/-- Settles O28: the selector check, then the variant of the entry. -/
theorem segkindNamesTheVariant : Obligations.SegkindNamesTheVariant := by
  refine ⟨fun sel => decodeCommand_selectorWord (op := 0x10) (by decide) rfl rfl, fun sel s beyond => ?_,
    fun sel tci s inside entry => ?_, fun sel etherType doff dlen s inside entry => ?_⟩
  · rw [exec_segkind, State.withSegment_badIndex beyond, State.raise]
  · rw [exec_segkind, State.withSegment_entry inside entry]
    rfl
  · rw [exec_segkind, State.withSegment_entry inside entry]
    rfl

/-- Settles O29: the selector and kind checks, then the type field of the entry. -/
theorem getypeReadsTheEtherType : Obligations.GetypeReadsTheEtherType := by
  refine ⟨fun sel => decodeCommand_selectorWord (op := 0x11) (by decide) rfl rfl, fun sel s beyond => ?_,
    fun sel tci s inside entry => ?_, fun sel etherType doff dlen s inside entry => ?_⟩
  · rw [exec_getype, State.withGeneric_badIndex beyond, State.raise]
  · rw [exec_getype, State.withGeneric_tag inside entry, State.raise]
  · rw [exec_getype, State.withGeneric_generic inside entry, BitVec.ofNat_toNat, State.answer]

/-- Settles O30: the selector and kind checks, then the slice of BUF the entry names. -/
theorem gdataReadsTheData : Obligations.GdataReadsTheData := by
  refine ⟨fun sel => decodeCommand_selectorWord (op := 0x12) (by decide) rfl rfl, fun sel s beyond => ?_,
    fun sel tci s inside entry => ?_, fun sel etherType doff dlen s inside entry bound => ?_⟩
  · rw [exec_gdata, State.withGeneric_badIndex beyond, State.raise]
  · rw [exec_gdata, State.withGeneric_tag inside entry, State.raise]
  · rw [exec_gdata, State.withGeneric_generic inside entry, State.withBytes_inside bound, Memory.slice_eq_map,
      BitVec.ofNat_toNat, State.answer]

/-- Settles O31: the fields by arithmetic, and pack and unpack inverse to each other. -/
theorem tciFieldsPackAndUnpack : Obligations.TciFieldsPackAndUnpack :=
  ⟨fun t => ⟨toNat_tciPcp t, toNat_tciDei t, toNat_tciVid t, tciPack_fields t⟩,
    fun p d v => ⟨toNat_tciPack p d v, tciPcp_tciPack p d v, tciDei_tciPack p d v, tciVid_tciPack p d v⟩⟩

/-- Settles O37: values in range are fields, each mutator writes its own field of the pack, and the accessors read the
fields of the pack. -/
theorem mutatorsRoundTripInAnyOrder : Obligations.MutatorsRoundTripInAnyOrder := by
  intro cmds sel p d v old s order hp hd hv inside entry
  obtain ⟨p, -, rfl⟩ := exists_setWidth_eq (n := 3) (Nat.lt_succ_of_le hp)
  obtain ⟨d, -, rfl⟩ := exists_setWidth_eq (n := 1) (Nat.lt_succ_of_le hd)
  obtain ⟨v, -, rfl⟩ := exists_setWidth_eq (n := 12) (Nat.lt_succ_of_le hv)
  obtain ⟨t, ran, inside', entry'⟩ := execUntilError_perm_mutators order inside entry
  have back {n : Nat} (field : BitVec n) (narrow : n ≤ 16) : (field.setWidth 16).setWidth n = field := by
    rw [BitVec.setWidth_setWidth_of_le _ narrow, BitVec.setWidth_eq]
  have wide {n : Nat} (field : BitVec n) (narrow : n ≤ 16) :
      field.setWidth 32 = (field.setWidth 16).setWidth 32 := by
    apply BitVec.eq_of_toNat_eq
    rw [BitVec.toNat_setWidth_of_le (by omega), BitVec.toNat_setWidth_of_le (by decide),
      BitVec.toNat_setWidth_of_le narrow]
  refine ⟨t, ran, ?_, ?_, ?_, ?_, ?_⟩
  · rw [entry', back p (by decide), back d (by decide), back v (by decide)]
  · rw [exec_pcp, State.withTag_tag inside' entry', tciPcp_tciPack, wide p (by decide), State.answer]
  · rw [exec_dei, State.withTag_tag inside' entry', tciDei_tciPack, wide d (by decide), State.answer]
  · rw [exec_vid, State.withTag_tag inside' entry', tciVid_tciPack, wide v (by decide), State.answer]
  · rw [exec_tci, State.withTag_tag inside' entry', BitVec.toNat_setWidth_of_le (by decide),
      BitVec.toNat_setWidth_of_le (by decide), BitVec.toNat_setWidth_of_le (by decide), ← toNat_tciPack,
      BitVec.ofNat_toNat, State.answer]

/-- Settles O60: LEN and NSEG are 0 at reset, so the guards of FCS, VALIDATE and of every selector answer first. -/
theorem resetStateAnswers : Obligations.ResetStateAnswers := by
  refine ⟨rfl, rfl, rfl, fun _ => rfl, rfl, rfl, rfl, rfl, rfl, rfl, ?_, exec_fcs_short (by decide),
    exec_validate_short (by decide), ?_, fun data => rfl, fun i sel selects => ?_, ?_⟩
  · exact exec_getbuf_read (by decide)
  · rw [exec_crcfin]
    rfl
  · exact selectorBeyondCountIsBadIndex i sel State.reset selects (Nat.zero_le _)
  · exact exec_load_parsed State.reset (data := []) (by decide) (parseFrame_short (by decide))

end Sys2Proof
end
